-- ==== Sys2Proof/Word.lean ====
section
/-! DEFINITION. The words of the CORE: 8-bit bytes, 16-bit words, register indices (R9, R11). -/

namespace Sys2Proof

/-- A byte: the width of a general register, a timer and a memory cell (R18, R27, R30). -/
abbrev Byte := BitVec 8

/-- A 16-bit word: the width of pc, I, a stack entry and an instruction (R21, R22, R25, R51). -/
abbrev Word := BitVec 16

/-- A 12-bit address immediate `nnn` (R52, R54). -/
abbrev Addr12 := BitVec 12

/-- The index of a general register, 0 to 15 (R18, R52). -/
abbrev RegIdx := Fin 16

end Sys2Proof
end

