-- ==== Sys2Proof/Syntax.lean ====
section
/-! DEFINITION. The instructions of the CORE: one constructor for each row of spec/opcode_table.json (R55). -/

namespace Sys2Proof

/-- An instruction with its operand fields (R52, R53, R55). The field types carry the bounds of the encoding: `x`, `y`
and the height `n` are in 0 to 15, `nn` has 8 bits, `nnn` has 12 bits (R54). -/
inductive Instr where
  /-- CLS, `00E0` (R109). -/
  | cls
  /-- RET, `00EE` (R76). -/
  | ret
  /-- JP addr, `1nnn` (R73). -/
  | jp (nnn : Addr12)
  /-- CALL addr, `2nnn` (R75). -/
  | call (nnn : Addr12)
  /-- SE Vx, nn, `3xnn` (R78). -/
  | seImm (x : RegIdx) (nn : Byte)
  /-- SNE Vx, nn, `4xnn` (R79). -/
  | sneImm (x : RegIdx) (nn : Byte)
  /-- SE Vx, Vy, `5xy0` (R80). -/
  | seReg (x y : RegIdx)
  /-- LD Vx, nn, `6xnn` (R84). -/
  | ldImm (x : RegIdx) (nn : Byte)
  /-- ADD Vx, nn, `7xnn` (R85). -/
  | addImm (x : RegIdx) (nn : Byte)
  /-- LD Vx, Vy, `8xy0` (R86). -/
  | ldReg (x y : RegIdx)
  /-- OR Vx, Vy, `8xy1` (R88). -/
  | orReg (x y : RegIdx)
  /-- AND Vx, Vy, `8xy2` (R89). -/
  | andReg (x y : RegIdx)
  /-- XOR Vx, Vy, `8xy3` (R90). -/
  | xorReg (x y : RegIdx)
  /-- ADD Vx, Vy, `8xy4` (R91). -/
  | addReg (x y : RegIdx)
  /-- SUB Vx, Vy, `8xy5` (R92). -/
  | subReg (x y : RegIdx)
  /-- SHR Vx, Vy, `8xy6` (R95). -/
  | shr (x y : RegIdx)
  /-- SUBN Vx, Vy, `8xy7` (R93). -/
  | subnReg (x y : RegIdx)
  /-- SHL Vx, Vy, `8xyE` (R96). -/
  | shl (x y : RegIdx)
  /-- SNE Vx, Vy, `9xy0` (R81). -/
  | sneReg (x y : RegIdx)
  /-- LD I, addr, `Annn` (R98). -/
  | ldI (nnn : Addr12)
  /-- JP V0, addr, `Bnnn` (R74). -/
  | jpV0 (nnn : Addr12)
  /-- RND Vx, nn, `Cxnn` (R97). -/
  | rnd (x : RegIdx) (nn : Byte)
  /-- DRW Vx, Vy, n, `Dxyn` (R107). -/
  | drw (x y : RegIdx) (n : Fin 16)
  /-- SKP Vx, `Ex9E` (R111). -/
  | skp (x : RegIdx)
  /-- SKNP Vx, `ExA1` (R112). -/
  | sknp (x : RegIdx)
  /-- LD Vx, DT, `Fx07` (R103). -/
  | ldVxDt (x : RegIdx)
  /-- LD Vx, K, `Fx0A` (R113). -/
  | ldVxK (x : RegIdx)
  /-- LD DT, Vx, `Fx15` (R104). -/
  | ldDtVx (x : RegIdx)
  /-- LD ST, Vx, `Fx18` (R105). -/
  | ldStVx (x : RegIdx)
  /-- ADD I, Vx, `Fx1E` (R99). -/
  | addI (x : RegIdx)
  /-- LD F, Vx, `Fx29` (R115). -/
  | ldF (x : RegIdx)
  /-- LD B, Vx, `Fx33` (R100). -/
  | ldB (x : RegIdx)
  /-- LD [I], Vx, `Fx55` (R101). -/
  | ldMemVx (x : RegIdx)
  /-- LD Vx, [I], `Fx65` (R102). -/
  | ldVxMem (x : RegIdx)
deriving DecidableEq, Repr

end Sys2Proof
end

