-- ==== Sys2Proof/Decode.lean ====
section
/-! DEFINITION. Decoding and encoding of instruction words (30_encoding.md R51 to R60). -/

namespace Sys2Proof

/-- What a 16-bit word decodes to: one operation with its fields, or `Unknown(w)` (R56). -/
inductive Decoded where
  | instr (i : Instr)
  | unknown (w : Word)
deriving DecidableEq, Repr

/-- What a run of bytes decodes to. -/
inductive DecodedBytes where
  /-- The first two bytes are the word of `i`; `rest` is what follows (R51). -/
  | instr (i : Instr) (rest : List Byte)
  /-- The first two bytes are a word with no operation (R57). -/
  | unknown (w : Word)
  /-- Fewer than two bytes: no instruction word (R51). -/
  | truncated
deriving DecidableEq, Repr

/-- The field `op = w[15:12]` (R52). -/
def opField (w : Word) : BitVec 4 := w.extractLsb' 12 4

/-- The field `x = w[11:8]` (R52). -/
def xField (w : Word) : RegIdx := (w.extractLsb' 8 4).toFin

/-- The field `y = w[7:4]` (R52). -/
def yField (w : Word) : RegIdx := (w.extractLsb' 4 4).toFin

/-- The field `n = w[3:0]` (R52; log 12). -/
def nField (w : Word) : BitVec 4 := w.extractLsb' 0 4

/-- The field `nn = w[7:0]` (R52). -/
def nnField (w : Word) : Byte := w.extractLsb' 0 8

/-- The field `nnn = w[11:0]` (R52). -/
def nnnField (w : Word) : Addr12 := w.extractLsb' 0 12

/-- Family 0: CLS and RET match the whole word (R56). -/
def decodeFamily0 (w : Word) : Decoded :=
  if w = 0x00E0#16 then .instr .cls
  else if w = 0x00EE#16 then .instr .ret
  else .unknown w

/-- Family 8: the sub-operation nibble (R56). -/
def decodeFamily8 (w : Word) : Decoded :=
  match nField w with
  | 0x0#4 => .instr (.ldReg (xField w) (yField w))
  | 0x1#4 => .instr (.orReg (xField w) (yField w))
  | 0x2#4 => .instr (.andReg (xField w) (yField w))
  | 0x3#4 => .instr (.xorReg (xField w) (yField w))
  | 0x4#4 => .instr (.addReg (xField w) (yField w))
  | 0x5#4 => .instr (.subReg (xField w) (yField w))
  | 0x6#4 => .instr (.shr (xField w) (yField w))
  | 0x7#4 => .instr (.subnReg (xField w) (yField w))
  | 0xE#4 => .instr (.shl (xField w) (yField w))
  | _ => .unknown w

/-- Family E: the sub-operation byte (R56). -/
def decodeFamilyE (w : Word) : Decoded :=
  match nnField w with
  | 0x9E#8 => .instr (.skp (xField w))
  | 0xA1#8 => .instr (.sknp (xField w))
  | _ => .unknown w

/-- Family F: the sub-operation byte (R56). -/
def decodeFamilyF (w : Word) : Decoded :=
  match nnField w with
  | 0x07#8 => .instr (.ldVxDt (xField w))
  | 0x0A#8 => .instr (.ldVxK (xField w))
  | 0x15#8 => .instr (.ldDtVx (xField w))
  | 0x18#8 => .instr (.ldStVx (xField w))
  | 0x1E#8 => .instr (.addI (xField w))
  | 0x29#8 => .instr (.ldF (xField w))
  | 0x33#8 => .instr (.ldB (xField w))
  | 0x55#8 => .instr (.ldMemVx (xField w))
  | 0x65#8 => .instr (.ldVxMem (xField w))
  | _ => .unknown w

/-- The decoder: total on every 16-bit word, reading only the word (R56, R65; the numbers are log 11, the exact match of
every sub-operation field is log 19). -/
def decodeWord (w : Word) : Decoded :=
  match opField w with
  | 0x0#4 => decodeFamily0 w
  | 0x1#4 => .instr (.jp (nnnField w))
  | 0x2#4 => .instr (.call (nnnField w))
  | 0x3#4 => .instr (.seImm (xField w) (nnField w))
  | 0x4#4 => .instr (.sneImm (xField w) (nnField w))
  | 0x5#4 => if nField w = 0x0#4 then .instr (.seReg (xField w) (yField w)) else .unknown w
  | 0x6#4 => .instr (.ldImm (xField w) (nnField w))
  | 0x7#4 => .instr (.addImm (xField w) (nnField w))
  | 0x8#4 => decodeFamily8 w
  | 0x9#4 => if nField w = 0x0#4 then .instr (.sneReg (xField w) (yField w)) else .unknown w
  | 0xA#4 => .instr (.ldI (nnnField w))
  | 0xB#4 => .instr (.jpV0 (nnnField w))
  | 0xC#4 => .instr (.rnd (xField w) (nnField w))
  | 0xD#4 => .instr (.drw (xField w) (yField w) (nField w).toFin)
  | 0xE#4 => decodeFamilyE w
  | _ => decodeFamilyF w -- 0xF, the one value of the four bits that is left

/-- A word from its two bytes, the byte at the lower address first: `concat(hi, lo)` (R39, R40). -/
def wordOfBytes (hi lo : Byte) : Word := hi ++ lo

/-- The two bytes of a word as memory holds them, high byte first (R39, R60). -/
def bytesOfWord (w : Word) : List Byte := [w.extractLsb' 8 8, w.extractLsb' 0 8]

/-- Decoding of a run of bytes, total on any bytes: an instruction is exactly two bytes (R51, R56). -/
def decodeBytes : List Byte → DecodedBytes
  | hi :: lo :: rest =>
    match decodeWord (wordOfBytes hi lo) with
    | .instr i => .instr i rest
    | .unknown w => .unknown w
  | _ => .truncated

/-- The instruction the decoder reads from a word numbered as spec/opcode_table.json numbers it; bits above `nbits` are
zero and an instruction is 16 bits long (R51). -/
def decodeTableWord (nbits w : Nat) : Option Instr :=
  if nbits ≤ 16 then
    match decodeBytes (bytesOfWord (BitVec.ofNat 16 (w % 2 ^ nbits))) with
    | .instr i _ => some i
    | _ => none
  else none

/-- The four bits of a register index or height (R52, R60). -/
def bits4 (x : Fin 16) : BitVec 4 := BitVec.ofFin x

/-- Format A: `op`, then `nnn` (R53). -/
def encodeA (op : BitVec 4) (nnn : Addr12) : Word := op ++ nnn

/-- Format XNN: `op`, `x`, `nn` (R53). -/
def encodeXNN (op : BitVec 4) (x : RegIdx) (nn : Byte) : Word := op ++ bits4 x ++ nn

/-- Formats XY and XYN: `op`, `x`, `y` and a low nibble, the sub-operation or the height (R53). -/
def encodeXYN (op : BitVec 4) (x y : RegIdx) (n : BitVec 4) : Word := op ++ bits4 x ++ bits4 y ++ n

/-- Format X: `op`, `x` and the sub-operation byte (R53). -/
def encodeX (op : BitVec 4) (x : RegIdx) (sub : Byte) : Word := op ++ bits4 x ++ sub

/-- The word of an instruction: its pattern of R55 with each field letter replaced by its field (R60). -/
def encode : Instr → Word
  | .cls => 0x00E0#16
  | .ret => 0x00EE#16
  | .jp nnn => encodeA 0x1#4 nnn
  | .call nnn => encodeA 0x2#4 nnn
  | .seImm x nn => encodeXNN 0x3#4 x nn
  | .sneImm x nn => encodeXNN 0x4#4 x nn
  | .seReg x y => encodeXYN 0x5#4 x y 0x0#4
  | .ldImm x nn => encodeXNN 0x6#4 x nn
  | .addImm x nn => encodeXNN 0x7#4 x nn
  | .ldReg x y => encodeXYN 0x8#4 x y 0x0#4
  | .orReg x y => encodeXYN 0x8#4 x y 0x1#4
  | .andReg x y => encodeXYN 0x8#4 x y 0x2#4
  | .xorReg x y => encodeXYN 0x8#4 x y 0x3#4
  | .addReg x y => encodeXYN 0x8#4 x y 0x4#4
  | .subReg x y => encodeXYN 0x8#4 x y 0x5#4
  | .shr x y => encodeXYN 0x8#4 x y 0x6#4
  | .subnReg x y => encodeXYN 0x8#4 x y 0x7#4
  | .shl x y => encodeXYN 0x8#4 x y 0xE#4
  | .sneReg x y => encodeXYN 0x9#4 x y 0x0#4
  | .ldI nnn => encodeA 0xA#4 nnn
  | .jpV0 nnn => encodeA 0xB#4 nnn
  | .rnd x nn => encodeXNN 0xC#4 x nn
  | .drw x y n => encodeXYN 0xD#4 x y (bits4 n)
  | .skp x => encodeX 0xE#4 x 0x9E#8
  | .sknp x => encodeX 0xE#4 x 0xA1#8
  | .ldVxDt x => encodeX 0xF#4 x 0x07#8
  | .ldVxK x => encodeX 0xF#4 x 0x0A#8
  | .ldDtVx x => encodeX 0xF#4 x 0x15#8
  | .ldStVx x => encodeX 0xF#4 x 0x18#8
  | .addI x => encodeX 0xF#4 x 0x1E#8
  | .ldF x => encodeX 0xF#4 x 0x29#8
  | .ldB x => encodeX 0xF#4 x 0x33#8
  | .ldMemVx x => encodeX 0xF#4 x 0x55#8
  | .ldVxMem x => encodeX 0xF#4 x 0x65#8

/-- A row of the opcode table: a word is the row's when its bits under `mask` are `pattern` (R55). -/
structure OpcodeRow where
  mnemonic : String
  mask : Word
  pattern : Word
deriving DecidableEq, Repr

/-- The word has the row's pattern (R55). -/
def OpcodeRow.matchesWord (r : OpcodeRow) (w : Word) : Bool := w &&& r.mask == r.pattern

/-- Rows 1 to 9 of the table of R55. -/
def opcodeTable1 : List OpcodeRow := [
  ⟨"CLS", 0xFFFF#16, 0x00E0#16⟩,
  ⟨"RET", 0xFFFF#16, 0x00EE#16⟩,
  ⟨"JP_addr", 0xF000#16, 0x1000#16⟩,
  ⟨"CALL_addr", 0xF000#16, 0x2000#16⟩,
  ⟨"SE_Vx__nn", 0xF000#16, 0x3000#16⟩,
  ⟨"SNE_Vx__nn", 0xF000#16, 0x4000#16⟩,
  ⟨"SE_Vx__Vy", 0xF00F#16, 0x5000#16⟩,
  ⟨"LD_Vx__nn", 0xF000#16, 0x6000#16⟩,
  ⟨"ADD_Vx__nn", 0xF000#16, 0x7000#16⟩]

/-- Rows 10 to 18 of the table of R55. -/
def opcodeTable2 : List OpcodeRow := [
  ⟨"LD_Vx__Vy", 0xF00F#16, 0x8000#16⟩,
  ⟨"OR_Vx__Vy", 0xF00F#16, 0x8001#16⟩,
  ⟨"AND_Vx__Vy", 0xF00F#16, 0x8002#16⟩,
  ⟨"XOR_Vx__Vy", 0xF00F#16, 0x8003#16⟩,
  ⟨"ADD_Vx__Vy", 0xF00F#16, 0x8004#16⟩,
  ⟨"SUB_Vx__Vy", 0xF00F#16, 0x8005#16⟩,
  ⟨"SHR_Vx__Vy", 0xF00F#16, 0x8006#16⟩,
  ⟨"SUBN_Vx__Vy", 0xF00F#16, 0x8007#16⟩,
  ⟨"SHL_Vx__Vy", 0xF00F#16, 0x800E#16⟩]

/-- Rows 19 to 26 of the table of R55. -/
def opcodeTable3 : List OpcodeRow := [
  ⟨"SNE_Vx__Vy", 0xF00F#16, 0x9000#16⟩,
  ⟨"LD_I__addr", 0xF000#16, 0xA000#16⟩,
  ⟨"JP_V0__addr", 0xF000#16, 0xB000#16⟩,
  ⟨"RND_Vx__nn", 0xF000#16, 0xC000#16⟩,
  ⟨"DRW_Vx__Vy__n", 0xF000#16, 0xD000#16⟩,
  ⟨"SKP_Vx", 0xF0FF#16, 0xE09E#16⟩,
  ⟨"SKNP_Vx", 0xF0FF#16, 0xE0A1#16⟩,
  ⟨"LD_Vx__DT", 0xF0FF#16, 0xF007#16⟩]

/-- Rows 27 to 34 of the table of R55. -/
def opcodeTable4 : List OpcodeRow := [
  ⟨"LD_Vx__K", 0xF0FF#16, 0xF00A#16⟩,
  ⟨"LD_DT__Vx", 0xF0FF#16, 0xF015#16⟩,
  ⟨"LD_ST__Vx", 0xF0FF#16, 0xF018#16⟩,
  ⟨"ADD_I__Vx", 0xF0FF#16, 0xF01E#16⟩,
  ⟨"LD_F__Vx", 0xF0FF#16, 0xF029#16⟩,
  ⟨"LD_B__Vx", 0xF0FF#16, 0xF033#16⟩,
  ⟨"LD__I___Vx", 0xF0FF#16, 0xF055#16⟩,
  ⟨"LD_Vx___I", 0xF0FF#16, 0xF065#16⟩]
/-- The table of R55 as spec/opcode_table.json writes it, in its order. The decoder does not use it: it is written from
R56, and the table is there to be compared with it. -/
def opcodeTable : List OpcodeRow := opcodeTable1 ++ opcodeTable2 ++ opcodeTable3 ++ opcodeTable4

/-- The mnemonic of an instruction's row, as spec/opcode_table.json spells it. -/
def Instr.mnemonic : Instr → String
  | .cls => "CLS"
  | .ret => "RET"
  | .jp _ => "JP_addr"
  | .call _ => "CALL_addr"
  | .seImm _ _ => "SE_Vx__nn"
  | .sneImm _ _ => "SNE_Vx__nn"
  | .seReg _ _ => "SE_Vx__Vy"
  | .ldImm _ _ => "LD_Vx__nn"
  | .addImm _ _ => "ADD_Vx__nn"
  | .ldReg _ _ => "LD_Vx__Vy"
  | .orReg _ _ => "OR_Vx__Vy"
  | .andReg _ _ => "AND_Vx__Vy"
  | .xorReg _ _ => "XOR_Vx__Vy"
  | .addReg _ _ => "ADD_Vx__Vy"
  | .subReg _ _ => "SUB_Vx__Vy"
  | .shr _ _ => "SHR_Vx__Vy"
  | .subnReg _ _ => "SUBN_Vx__Vy"
  | .shl _ _ => "SHL_Vx__Vy"
  | .sneReg _ _ => "SNE_Vx__Vy"
  | .ldI _ => "LD_I__addr"
  | .jpV0 _ => "JP_V0__addr"
  | .rnd _ _ => "RND_Vx__nn"
  | .drw _ _ _ => "DRW_Vx__Vy__n"
  | .skp _ => "SKP_Vx"
  | .sknp _ => "SKNP_Vx"
  | .ldVxDt _ => "LD_Vx__DT"
  | .ldVxK _ => "LD_Vx__K"
  | .ldDtVx _ => "LD_DT__Vx"
  | .ldStVx _ => "LD_ST__Vx"
  | .addI _ => "ADD_I__Vx"
  | .ldF _ => "LD_F__Vx"
  | .ldB _ => "LD_B__Vx"
  | .ldMemVx _ => "LD__I___Vx"
  | .ldVxMem _ => "LD_Vx___I"
end Sys2Proof
end

