-- ==== Sys2Proof/Config.lean ====
section
/-! DEFINITION. What an implementation fixes: the CORE's fixed values (R9, R10), the OPEN parameters, the launch
data and the one free value. -/

namespace Sys2Proof

/-- Bytes of memory (R9, R30, R35). -/
abbrev Config.memSize : Nat := 4096

/-- Entries of the call stack (R9, R25). -/
abbrev Config.stackCap : Nat := 16

/-- Framebuffer columns (R9, R31). -/
abbrev Config.fbWidth : Nat := 64

/-- Framebuffer rows (R9, R31). -/
abbrev Config.fbHeight : Nat := 32

/-- Bytes of one font glyph (R9, R115). -/
abbrev Config.glyphBytes : Nat := 5

/-- Bytes of the font table (R9, R140). -/
abbrev Config.fontBytes : Nat := 80

/-- The program entry address ENTRY (R10, D3; log 10). -/
abbrev Config.entry : Nat := 0x200

/-- The longest image that can be launched, 4096 - 0x200 bytes (R140, D27; log 23). -/
abbrev Config.maxImage : Nat := 3584

/-- The parameter SHIFT_SOURCE: which register SHR and SHL shift (R94, D4; log 4). -/
inductive ShiftSource where
  | X
  | Y
deriving DecidableEq, Repr

/-- The parameter INDEX_OVERFLOW: what ADD I, Vx does past 0xFFFF (R99, D9; log 5). -/
inductive IndexOverflow where
  | wrap
  | fault
deriving DecidableEq, Repr

/-- The OPEN parameters of the CORE (R10). They are plain data of the state, so a statement about every state is a
statement about every setting. -/
structure Params where
  shiftSource : ShiftSource
  indexOverflow : IndexOverflow
deriving DecidableEq, Repr

/-- The spec's default parameters, `X` and `wrap` (R10). DESIGN CHOICE for reset (log 4, log 5). -/
def Params.default : Params := { shiftSource := .X, indexOverflow := .wrap }

/-- What a launch puts into memory: the glyph table FONT and the program image (R140, D26). -/
structure LaunchData where
  font : List Byte
  image : List Byte
deriving DecidableEq, Repr

/-- The random byte of the `k`-th draw (R97, R132, D25): a FREE VALUE, nothing is known of it (log 7). -/
opaque Config.randByte : Nat → Byte

end Sys2Proof
end

