-- ==== Sys2Proof/Machine/Framebuffer.lean ====
section
/-! DEFINITION. The 64 x 32 framebuffer and its pixel accesses (10_state.md R31, R33; 46_display.md). -/

namespace Sys2Proof.Machine

/-- A framebuffer column, 0 to 63. -/
abbrev Column := Fin 64

/-- A framebuffer row, 0 to 31. -/
abbrev Row := Fin 32

/-- A pixel's place: column, then row, as `FB[c, r]` is written (R12). -/
abbrev Pixel := Column × Row

/-- `FB`: 32 rows of 64 pixels (R31; the storage order is the model's, log 29). -/
abbrev Framebuffer := Vector (Vector Bool 64) 32

/-- Every pixel 0 (R34, R109). -/
def Framebuffer.blank : Framebuffer := Vector.replicate 32 (Vector.replicate 64 false)

/-- `FB[c, r]` (R31). -/
def Framebuffer.pixel (fb : Framebuffer) (p : Pixel) : Bool := fb[p.2][p.1]

/-- `FB[c, r] <- FB[c, r] ^ 1` (R107). -/
def Framebuffer.flip (fb : Framebuffer) (p : Pixel) : Framebuffer :=
  fb.set p.2 (fb[p.2].set p.1 (!fb[p.2][p.1]))

/-- Toggle the pixels of the list in order; the Bool is the collision output, the OR of each pixel's value before its
toggle (R107, R108). -/
def Framebuffer.drawPixels (fb : Framebuffer) (ps : List Pixel) : Framebuffer × Bool :=
  ps.foldl (fun acc p => (Framebuffer.flip acc.1 p, acc.2 || Framebuffer.pixel acc.1 p)) (fb, false)

end Sys2Proof.Machine
end

