-- ==== Sys2Proof/Machine/Memory.lean ====
section
/-! DEFINITION. Memory as plain data: a canonical list of (address, byte) pairs (20_memory.md R35, R36, R43). -/

namespace Sys2Proof.Machine

/-- The 4096 bytes of `MEM`, as the list of the cells that differ from the launch value 0, addresses strictly rising (R30,
R35). -/
abbrev Memory := List Host.Cell

/-- What an address that is not listed reads as: memory is zero-initialized (R34, R45, R140). -/
def Memory.unlisted : Byte := 0#8

/-- `MEM[a]` (R43). The range check of R36 is `checkRange`; this is the array alone. -/
def Memory.read : Memory → Nat → Byte
  | [], _ => Memory.unlisted
  | c :: m, a => if a = c.1 then c.2 else Memory.read m a

/-- The cell of a byte, or nothing where the byte is what an unlisted address reads as. -/
def Memory.cell (a : Nat) (v : Byte) : Memory := if v = Memory.unlisted then [] else [(a, v)]

/-- `MEM[a] <- v`: exactly the one byte changes (R43). Keeps the list canonical. -/
def Memory.write : Memory → Nat → Byte → Memory
  | [], a, v => Memory.cell a v
  | c :: m, a, v =>
    if a < c.1 then Memory.cell a v ++ c :: m
    else if a = c.1 then Memory.cell a v ++ m
    else c :: Memory.write m a v

/-- Store consecutive bytes from `a` upward, in order (R41, R101). -/
def Memory.writeRun : Memory → Nat → List Byte → Memory
  | m, _, [] => m
  | m, a, b :: bs => Memory.writeRun (Memory.write m a b) (a + 1) bs

/-- The canonical form: addresses strictly rising, no cell holding what an unlisted address reads as, every address one
of the 4096 that exist (R35, R36). -/
abbrev Memory.wf (m : Memory) : Prop :=
  m.Pairwise (fun c d => c.1 < d.1) ∧ ∀ c ∈ m, c.2 ≠ Memory.unlisted ∧ c.1 < Config.memSize

end Sys2Proof.Machine
end

