-- ==== Sys2Proof/Machine/State.lean ====
section
/-! DEFINITION. The state of the machine as plain data (10_state.md), its reset value, and the reasons a step stops. -/

namespace Sys2Proof.Machine

/-- A fatal reason, with the value R116 says is recorded. -/
inductive FatalReason where
  /-- CALL with SP = 16 (R75, R120). -/
  | stackOverflow
  /-- RET with SP = 0 (R76, R120). -/
  | stackUnderflow
  /-- An access at the natural-number address `a`, 4096 or more: the fetch, DRW, LD B, LD [I], LD Vx [I] (R36, R121). -/
  | memoryOutOfRange (a : Nat)
  /-- SKP or SKNP with the key value `k`, 16 or more (R110, R122). -/
  | keyIndexOutOfRange (k : Byte)
  /-- ADD I, Vx past 0xFFFF when INDEX_OVERFLOW = fault (R99). -/
  | indexOverflow
deriving DecidableEq, Repr

/-- The numeric code of a fatal outcome (R116, D18). -/
def FatalReason.code : FatalReason → Nat
  | .stackOverflow => 2
  | .stackUnderflow => 3
  | .memoryOutOfRange _ => 4
  | .keyIndexOutOfRange _ => 5
  | .indexOverflow => 6

/-- Everything the spec gives the machine (R18 to R34), and the two fields that are the model's own. -/
structure State where
  /-- `V[0]` to `V[15]`; VF is `V[15]` (R18, R19). -/
  regs : Vector Byte 16
  /-- `I` (R21). -/
  index : Word
  /-- `pc` (R22). -/
  pc : Word
  /-- `STACK[0]` to `STACK[15]` (R25). -/
  stack : Vector Word 16
  /-- `SP`, 0 to 16 (R26; log 25). -/
  sp : Fin 17
  /-- `DT`, the delay timer (R27). -/
  delay : Byte
  /-- `ST`, the sound timer (R27). -/
  sound : Byte
  /-- `FAULT` (R28). -/
  fault : Option FatalReason
  /-- `MEM` (R30). -/
  mem : Memory
  /-- `FB` (R31). -/
  fb : Framebuffer
  /-- `FB_REDRAW` (R31). -/
  redraw : Bool
  /-- `KEY[0]` to `KEY[15]`, written by the input collaborator between steps (R32, R50; log 8). -/
  keys : Vector Bool 16
  /-- `sound_event`, the output of the latest requested step (R33, R69; log 3). -/
  soundEvent : Bool
  /-- The model's own: how many random bytes have been drawn (R132, D25; log 7). -/
  draws : Nat
  /-- The model's own: the OPEN parameters (R10; log 4, log 5). -/
  params : Params
deriving DecidableEq, Repr

/-- Why a step stops with a fault. -/
inductive Fault where
  /-- The step was fatal: raised by the fetch and by the meanings that R116 lists, through `raiseFatal`. `after` is the state
  the spec gives the fatal step, the state before it with FAULT recorded (R63, R118). Safe: the spec itself aborts the
  run there (R118; log 1). -/
  | fatal (reason : FatalReason) (after : State)
  /-- The CORE is already faulted, so it has no step: raised by `step` alone (R62, R119). Safe: the spec gives no further
  behaviour until reset (log 1). -/
  | noStep (reason : FatalReason)
deriving DecidableEq, Repr

/-- Why a step answers without a meaning. -/
inductive Refusal where
  /-- An arm of `exec` whose instruction has no meaning yet. No arm raises it. Safe. -/
  | notModelled (mnemonic : String)
  /-- The outcome `Unsupported(w)`: the fetched word is no instruction; raised by `step` alone; no state changes (R57, R117;
  log 2). Safe: the spec gives the word no effect and hands the choice to the driver. -/
  | unsupported (w : Word)
deriving DecidableEq, Repr

/-- The word of the outcome `Unsupported(w)`, for the driver (R117). -/
def Refusal.word? : Refusal → Option Word
  | .notModelled _ => none
  | .unsupported w => some w

/-- What the execute part of a step, or a whole step, answers (R116). -/
abbrev Result := Host.Outcome State Fault Refusal

/-- The machine right after reset (R34, R139): memory is all zero with nothing loaded (log 6, log 21). `draws` and `params`
are the model's own fields; their values here are DESIGN CHOICES (log 4, log 5, log 7). -/
def State.reset : State where
  regs := Vector.replicate 16 0#8
  index := 0#16
  pc := BitVec.ofNat 16 Config.entry
  stack := Vector.replicate 16 0#16
  sp := 0
  delay := 0#8
  sound := 0#8
  fault := none
  mem := []
  fb := Framebuffer.blank
  redraw := false
  keys := Vector.replicate 16 false
  soundEvent := false
  draws := 0
  params := Params.default

end Sys2Proof.Machine
end

