-- ==== Sys2Proof/Machine/Ops.lean ====
section
/-! DEFINITION. The named operations over registers, memory, stack, timers and outcomes that the meanings and the step
share. -/

namespace Sys2Proof.Machine

/-- `V[x]` (R12, R18). -/
def State.reg (s : State) (x : RegIdx) : Byte := s.regs[x]

/-- `V[x] <- v` (R12, R18). -/
def State.setReg (s : State) (x : RegIdx) (v : Byte) : State := { s with regs := s.regs.set x v }

/-- `pc <- target` (R66). -/
def State.setPc (s : State) (target : Word) : State := { s with pc := target }

/-- `I <- v` (R21). -/
def State.setIndex (s : State) (v : Word) : State := { s with index := v }

/-- `DT <- v` (R104). -/
def State.setDelay (s : State) (v : Byte) : State := { s with delay := v }

/-- `ST <- v` (R105). -/
def State.setSound (s : State) (v : Byte) : State := { s with sound := v }

/-- Replace memory, after a store. -/
def State.setMem (s : State) (m : Memory) : State := { s with mem := m }

/-- Replace the framebuffer, after a draw or a clear. -/
def State.setFb (s : State) (fb : Framebuffer) : State := { s with fb := fb }

/-- `FB_REDRAW <- b` (R31). -/
def State.setRedraw (s : State) (b : Bool) : State := { s with redraw := b }

/-- The default end of an instruction: `pc <- (pc + 2) mod 2^16` (R66). -/
def State.advance (s : State) : State := s.setPc (s.pc + 2#16)

/-- The end of a skip instruction (R77). -/
def State.skipIf (s : State) (c : Bool) : State := s.setPc (if c then s.pc + 4#16 else s.pc + 2#16)

/-- Push a word: `STACK[SP] <- v; SP <- SP + 1`; nothing when SP = 16 (R26, R75). -/
def State.push? (s : State) (v : Word) : Option State :=
  if h : s.sp.val < 16 then
    some { s with stack := s.stack.set s.sp.val v, sp := ⟨s.sp.val + 1, Nat.succ_lt_succ h⟩ }
  else none

/-- Pop a word: `SP <- SP - 1`, then `STACK[SP]`; nothing when SP = 0. The entry is not cleared (R25, R26, R76). -/
def State.pop? (s : State) : Option (Word × State) :=
  if h : s.sp.val = 0 then none
  else
    have hlt : s.sp.val - 1 < 16 := by omega
    some (s.stack[s.sp.val - 1], { s with sp := ⟨s.sp.val - 1, Nat.lt_succ_of_lt hlt⟩ })

/-- `FAULT <- reason`. The step's sound event output is false (R69, R118; log 3). -/
def State.recordFault (s : State) (reason : FatalReason) : State :=
  { s with fault := some reason, soundEvent := false }

/-- `raise Fatal(reason)`: the ONE way a step becomes fatal. Nothing of the step is kept but the fault record (R15, R63,
R118). `s` is the state before the step. -/
def raiseFatal (reason : FatalReason) (s : State) : Result := .fault (.fatal reason (s.recordFault reason))

/-- `check_range(a, k)`: the first of the addresses `a` to `a + k - 1` that does not exist, if there is one (R36, R37,
R38). -/
def checkRange (a k : Nat) : Option Nat :=
  ((List.range k).map (fun j => a + j)).find? (fun b => decide (Config.memSize ≤ b))

/-- Run `act` when the bytes `a` to `a + k - 1` all exist, else end the step with the fatal outcome (R38, R121). -/
def withRange (a k : Nat) (s : State) (act : State) : Result :=
  match checkRange a k with
  | some b => raiseFatal (.memoryOutOfRange b) s
  | none => .next act

/-- `RandByte()`, the byte of the next draw (R97, R132; log 7). -/
def State.randByte (s : State) : Byte := Config.randByte s.draws

/-- The next draw is another one (R132; log 7). -/
def State.countDraw (s : State) : State := { s with draws := s.draws + 1 }

/-- A countdown timer after one step: one less while nonzero (R27, R67). -/
def countDown (t : Byte) : Byte := if t = 0#8 then t else t - 1#8

/-- The timer phase of a completed step: the sound event, then both timers (R67, R69). -/
def timerPhase (s : State) : State :=
  { s with soundEvent := s.sound == 1#8, delay := countDown s.delay, sound := countDown s.sound }

/-- The end of a step: an execute part that completes is followed by the timer phase; any other outcome is the step's
(R61, R67). -/
def endStep : Result → Result
  | .next t => .next (timerPhase t)
  | .fault r => .fault r
  | .refused r => .refused r

/-- What the fetch gives: the instruction word, or the first address that does not exist. -/
inductive Fetched where
  | word (w : Word)
  | outOfRange (a : Nat)
deriving DecidableEq, Repr

/-- The fetch: two one-byte reads at pc and pc + 1, high byte first, each range-checked (R40, R64). -/
def fetch (s : State) : Fetched :=
  match checkRange s.pc.toNat 2 with
  | some a => .outOfRange a
  | none => .word (wordOfBytes (s.mem.read s.pc.toNat) (s.mem.read (s.pc.toNat + 1)))

/-- Place a word's two bytes where the next fetch reads them, when they exist (R39, R40; log 21). -/
def storeFetchWord (s : State) (w : Word) : State :=
  match checkRange s.pc.toNat 2 with
  | some _ => s
  | none => s.setMem (s.mem.writeRun s.pc.toNat (bytesOfWord w))

end Sys2Proof.Machine
end

