-- ==== Sys2Proof/Machine/Flags.lean ====
section
/-! DEFINITION. The flag computations: what VF gets, computed from the operand values (R16, R19, R83). -/

namespace Sys2Proof.Machine

/-- The flag register VF, register 15 (R9, R19). -/
def flagReg : RegIdx := 15

/-- A flag as a byte, 1 or 0. -/
def flagByte (f : Bool) : Byte := if f then 1#8 else 0#8

/-- The carry of an 8-bit addition (R82, R91). -/
def carryFlag (a b : Byte) : Bool := decide (255 < a.toNat + b.toNat)

/-- No borrow in `a - b`: 1 means no borrow (R82, R92, R93). -/
def noBorrowFlag (a b : Byte) : Bool := decide (b.toNat ≤ a.toNat)

/-- The low bit that a right shift moves out (R95). -/
def shiftedOutLow (v : Byte) : Bool := v.getLsbD 0

/-- The high bit that a left shift moves out (R96). -/
def shiftedOutHigh (v : Byte) : Bool := v.getLsbD 7

/-- Write a result and its flag: the destination first, VF last (R16, R83; log 17). -/
def State.setRegFlag (s : State) (x : RegIdx) (v : Byte) (f : Bool) : State :=
  (s.setReg x v).setReg flagReg (flagByte f)

end Sys2Proof.Machine
end

