-- ==== Sys2Proof/Machine/Operands.lean ====
section
/-! DEFINITION. The operand forms: how an instruction's operand values are computed from fields and state. -/

namespace Sys2Proof.Machine

/-- `zext_16(nnn)` (R54, R73, R98). -/
def zext16 (nnn : Addr12) : Word := nnn.setWidth 16

/-- The target of JP V0, addr: the exact sum `nnn + V[0]`, not masked to 12 bits (R74; log 14). -/
def offsetTarget (s : State) (nnn : Addr12) : Word := BitVec.ofNat 16 (nnn.toNat + (s.reg 0).toNat)

/-- The exact sum `I + V[x]` of ADD I, Vx (R99). -/
def indexSum (s : State) (x : RegIdx) : Nat := s.index.toNat + (s.reg x).toNat

/-- The value SHR and SHL shift, chosen by SHIFT_SOURCE (R94; log 4). -/
def shiftOperand (s : State) (x y : RegIdx) : Byte :=
  match s.params.shiftSource with
  | .X => s.reg x
  | .Y => s.reg y

/-- The key a key operand names: the whole value `V[x]`, not masked; no key for 16 or more (R110; log 26). -/
def keyOperand (v : Byte) : Option (Fin 16) := if h : v.toNat < 16 then some ⟨v.toNat, h⟩ else none

/-- The least key that is held, if any (R113). -/
def leastKeyHeld (s : State) : Option (Fin 16) := (List.finRange 16).find? (fun k => s.keys[k])

/-- The address of glyph `v`: five bytes a glyph from address 0, the whole value used (R115). -/
def glyphAddress (v : Byte) : Word := BitVec.ofNat 16 (v.toNat * Config.glyphBytes)

/-- The decimal digits of a byte: hundreds, tens, ones (R100). -/
def bcdDigits (v : Byte) : List Byte :=
  [BitVec.ofNat 8 (v.toNat / 100), BitVec.ofNat 8 (v.toNat / 10 % 10), BitVec.ofNat 8 (v.toNat % 10)]

/-- The values of `V[0]` to `V[x]`, in order (R101). -/
def regsUpTo (s : State) (x : RegIdx) : List Byte := s.regs.toList.take (x.val + 1)

/-- The registers after `V[i] <- MEM[a + i]` for every `i` in 0 to `x` (R102). -/
def loadRegs (s : State) (a : Nat) (x : RegIdx) : Vector Byte 16 :=
  Vector.ofFn (fun i => if i ≤ x then s.mem.read (a + i.val) else s.reg i)

/-- Is the sprite bit at column `col` of this row set? Bit 7 is the leftmost column (R106; log 12). -/
def spriteBit (row : Byte) (col : Nat) : Bool := row.getLsbD (7 - col)

/-- The pixel of sprite column `col`, sprite row `row` of a sprite drawn at (`cx`, `cy`): both coordinates wrap (R107, C9). -/
def spritePixel (cx cy : Byte) (col row : Nat) : Pixel :=
  (Fin.ofNat 64 (cx.toNat + col), Fin.ofNat 32 (cy.toNat + row))

/-- The pixels that the set bits of one sprite row reach, left to right (R107). -/
def rowPixels (cx cy : Byte) (row : Nat) (bits : Byte) : List Pixel :=
  ((List.range 8).filter (fun col => spriteBit bits col)).map (fun col => spritePixel cx cy col row)

/-- The pixels that the set bits of the `n` sprite bytes at `a` reach, top row first (R106, R107). -/
def spritePixels (m : Memory) (a : Nat) (cx cy : Byte) (n : Nat) : List Pixel :=
  (List.range n).flatMap (fun row => rowPixels cx cy row (m.read (a + row)))

end Sys2Proof.Machine
end

