-- ==== Sys2Proof/Machine/Arithmetic.lean ====
section
/-! DEFINITION. Register moves, arithmetic, logic, shifts and random (43_arithmetic.md). -/

namespace Sys2Proof.Machine

/-- LD Vx, nn (R84). -/
def execLdImm (x : RegIdx) (nn : Byte) (s : State) : Result := .next (s.setReg x nn).advance

/-- ADD Vx, nn: wraps, writes no flag (R85). -/
def execAddImm (x : RegIdx) (nn : Byte) (s : State) : Result := .next (s.setReg x (s.reg x + nn)).advance

/-- LD Vx, Vy (R86). -/
def execLdReg (x y : RegIdx) (s : State) : Result := .next (s.setReg x (s.reg y)).advance

/-- OR Vx, Vy: no flag (R87, R88; log 15). -/
def execOrReg (x y : RegIdx) (s : State) : Result := .next (s.setReg x (s.reg x ||| s.reg y)).advance

/-- AND Vx, Vy: no flag (R87, R89; log 15). -/
def execAndReg (x y : RegIdx) (s : State) : Result := .next (s.setReg x (s.reg x &&& s.reg y)).advance

/-- XOR Vx, Vy: no flag (R87, R90; log 15). -/
def execXorReg (x y : RegIdx) (s : State) : Result := .next (s.setReg x (s.reg x ^^^ s.reg y)).advance

/-- ADD Vx, Vy (R91). -/
def execAddReg (x y : RegIdx) (s : State) : Result :=
  .next (s.setRegFlag x (s.reg x + s.reg y) (carryFlag (s.reg x) (s.reg y))).advance

/-- SUB Vx, Vy, `x - y` (R92). -/
def execSubReg (x y : RegIdx) (s : State) : Result :=
  .next (s.setRegFlag x (s.reg x - s.reg y) (noBorrowFlag (s.reg x) (s.reg y))).advance

/-- SUBN Vx, Vy, `y - x` (R93). -/
def execSubnReg (x y : RegIdx) (s : State) : Result :=
  .next (s.setRegFlag x (s.reg y - s.reg x) (noBorrowFlag (s.reg y) (s.reg x))).advance

/-- SHR Vx, Vy (R94, R95). -/
def execShr (x y : RegIdx) (s : State) : Result :=
  .next (s.setRegFlag x (shiftOperand s x y >>> 1) (shiftedOutLow (shiftOperand s x y))).advance

/-- SHL Vx, Vy (R94, R96). -/
def execShl (x y : RegIdx) (s : State) : Result :=
  .next (s.setRegFlag x (shiftOperand s x y <<< 1) (shiftedOutHigh (shiftOperand s x y))).advance

/-- RND Vx, nn (R97). -/
def execRnd (x : RegIdx) (nn : Byte) (s : State) : Result :=
  .next (s.countDraw.setReg x (s.randByte &&& nn)).advance

end Sys2Proof.Machine
end

