-- ==== Sys2Proof/Machine/ControlFlow.lean ====
section
/-! DEFINITION. Control flow: JP, JP V0, CALL, RET (41_control_flow.md). -/

namespace Sys2Proof.Machine

/-- JP addr (R73). -/
def execJp (nnn : Addr12) (s : State) : Result := .next (s.setPc (zext16 nnn))

/-- JP V0, addr (R74). -/
def execJpV0 (nnn : Addr12) (s : State) : Result := .next (s.setPc (offsetTarget s nnn))

/-- CALL addr: pushes the address of the CALL word itself (R75; log 13). -/
def execCall (nnn : Addr12) (s : State) : Result :=
  match s.push? s.pc with
  | none => raiseFatal .stackOverflow s
  | some t => .next (t.setPc (zext16 nnn))

/-- RET: resumes two bytes after the popped address (R76; log 13). -/
def execRet (s : State) : Result :=
  match s.pop? with
  | none => raiseFatal .stackUnderflow s
  | some (v, t) => .next (t.setPc (v + 2#16))

end Sys2Proof.Machine
end

