-- ==== Sys2Proof/Machine/Display.lean ====
section
/-! DEFINITION. Display instructions (46_display.md). -/

namespace Sys2Proof.Machine

/-- The state after a draw whose sprite bytes all exist: the pixels, FB_REDRAW when `n > 0`, VF last (R107). -/
def drawn (x y : RegIdx) (n : Fin 16) (s : State) : State :=
  let d := s.fb.drawPixels (spritePixels s.mem s.index.toNat (s.reg x) (s.reg y) n.val)
  ((s.setFb d.1).setRedraw (s.redraw || decide (0 < n.val))).setReg flagReg (flagByte d.2)

/-- DRW Vx, Vy, n (R107). -/
def execDrw (x y : RegIdx) (n : Fin 16) (s : State) : Result :=
  withRange s.index.toNat n.val s (drawn x y n s).advance

/-- CLS: every pixel 0, FB_REDRAW as it was (R109; log 18). -/
def execCls (s : State) : Result := .next (s.setFb Framebuffer.blank).advance

end Sys2Proof.Machine
end

