-- ==== Sys2Proof/Machine/Font.lean ====
section
/-! DEFINITION. The font glyph address instruction (48_font.md). -/

namespace Sys2Proof.Machine

/-- LD F, Vx (R115). -/
def execLdF (x : RegIdx) (s : State) : Result := .next (s.setIndex (glyphAddress (s.reg x))).advance

end Sys2Proof.Machine
end

