-- ==== Sys2Proof/Machine/IndexMemory.lean ====
section
/-! DEFINITION. The index register and the instructions that reach memory through it (44_index_memory.md). -/

namespace Sys2Proof.Machine

/-- LD I, addr (R98). -/
def execLdI (nnn : Addr12) (s : State) : Result := .next (s.setIndex (zext16 nnn)).advance

/-- ADD I, Vx: no flag; past 0xFFFF the parameter INDEX_OVERFLOW decides (R99; log 5, log 15). -/
def execAddI (x : RegIdx) (s : State) : Result :=
  if 0xFFFF < indexSum s x ∧ s.params.indexOverflow = .fault then raiseFatal .indexOverflow s
  else .next (s.setIndex (BitVec.ofNat 16 (indexSum s x))).advance

/-- LD B, Vx: three decimal digits at I, I + 1, I + 2 (R100). -/
def execLdB (x : RegIdx) (s : State) : Result :=
  withRange s.index.toNat 3 s
    (s.setMem (s.mem.writeRun s.index.toNat (bcdDigits (s.reg x)))).advance

/-- LD [I], Vx: `V[0]` to `V[x]` from I upward; I unchanged (R101; log 15). -/
def execLdMemVx (x : RegIdx) (s : State) : Result :=
  withRange s.index.toNat (x.val + 1) s
    (s.setMem (s.mem.writeRun s.index.toNat (regsUpTo s x))).advance

/-- LD Vx, [I]: `V[0]` to `V[x]` from the bytes at I upward; I unchanged (R102; log 15). -/
def execLdVxMem (x : RegIdx) (s : State) : Result :=
  withRange s.index.toNat (x.val + 1) s
    (State.advance { s with regs := loadRegs s s.index.toNat x })

end Sys2Proof.Machine
end

