-- ==== Sys2Proof/Machine/Keys.lean ====
section
/-! DEFINITION. Key instructions (47_keys.md). -/

namespace Sys2Proof.Machine

/-- SKP Vx (R110, R111). -/
def execSkp (x : RegIdx) (s : State) : Result :=
  match keyOperand (s.reg x) with
  | none => raiseFatal (.keyIndexOutOfRange (s.reg x)) s
  | some k => .next (s.skipIf s.keys[k])

/-- SKNP Vx (R110, R112). -/
def execSknp (x : RegIdx) (s : State) : Result :=
  match keyOperand (s.reg x) with
  | none => raiseFatal (.keyIndexOutOfRange (s.reg x)) s
  | some k => .next (s.skipIf (!s.keys[k]))

/-- LD Vx, K: the least held key; with none held the step completes and changes nothing here, so the same word is
fetched again (R113, R114; log 27). -/
def execLdVxK (x : RegIdx) (s : State) : Result :=
  match leastKeyHeld s with
  | none => .next s
  | some k => .next (s.setReg x (BitVec.ofNat 8 k.val)).advance

end Sys2Proof.Machine
end

