-- ==== Sys2Proof/Machine/Timers.lean ====
section
/-! DEFINITION. Timer instructions (45_timers.md). The countdown is the timer phase of the step (R67). -/

namespace Sys2Proof.Machine

/-- LD Vx, DT (R103). -/
def execLdVxDt (x : RegIdx) (s : State) : Result := .next (s.setReg x s.delay).advance

/-- LD DT, Vx (R104). -/
def execLdDtVx (x : RegIdx) (s : State) : Result := .next (s.setDelay (s.reg x)).advance

/-- LD ST, Vx (R105). -/
def execLdStVx (x : RegIdx) (s : State) : Result := .next (s.setSound (s.reg x)).advance

end Sys2Proof.Machine
end

