-- ==== Sys2Proof/Machine/Step.lean ====
section
/-! DEFINITION. The one operation of the CORE: fetch, decode, execute, timer phase (40_step_cycle.md R61). -/

namespace Sys2Proof.Machine

/-- `step`: exactly one fetch-decode-execute cycle, then the timer phase (R61). The checks come in the order of R124. -/
def step (s : State) : Host.Outcome State Fault Refusal :=
  match s.fault with
  | some reason => .fault (.noStep reason)
  | none =>
    match fetch s with
    | .outOfRange a => raiseFatal (.memoryOutOfRange a) s
    | .word w =>
      match decodeWord w with
      | .unknown w => .refused (.unsupported w)
      | .instr i => endStep (exec i s)

/-- The state with the instruction of `w` (numbered as the opcode table numbers it, bits above `nbits` zero) where `step`
fetches its next instruction: the two bytes at pc and pc + 1 (log 21). -/
def State.withFetchWord (s : State) (nbits w : Nat) : State :=
  storeFetchWord s (BitVec.ofNat 16 (w % 2 ^ nbits))

end Sys2Proof.Machine
end

