-- ==== Sys2Proof/WellFormed.lean ====
section
/-! DEFINITION. What makes a term one the spec gives a meaning to. An instruction needs no check beyond its type: the
field types of `Instr` are the fields of R52, so a term out of range (register 16, a 13-bit address) cannot be written.
The data that can be ill formed is that of a launch (R140). -/

namespace Sys2Proof

/-- The font table has its 80 bytes (R140). -/
def LaunchData.fontOk (l : LaunchData) : Bool := l.font.length == Config.fontBytes

/-- The image fits between ENTRY and the end of memory (R140, D27). -/
def LaunchData.imageOk (l : LaunchData) : Bool := decide (l.image.length ≤ Config.maxImage)

/-- A launch the spec gives a meaning (R140). -/
def LaunchData.wellFormed (l : LaunchData) : Bool := l.fontOk && l.imageOk

end Sys2Proof
end

