-- ==== Sys2Proof/Machine/Launch.lean ====
section
/-! DEFINITION. The launch: how a program comes to run from the reset state (70_reset_and_hazards.md R139 to R142). -/

namespace Sys2Proof.Machine

/-- Memory at launch: zero, then the font from address 0, then the image from ENTRY (R45, R140). -/
def launchMemory (l : LaunchData) : Memory :=
  (Memory.writeRun [] 0 l.font).writeRun Config.entry l.image

/-- The state at the first step: the reset state with the loaded memory and the chosen parameters; no launch for data
the spec gives no meaning (R10, R139, R140, R141, D27; log 6, log 23). -/
def launch (p : Params) (l : LaunchData) : Option State :=
  if l.wellFormed then some { State.reset with mem := launchMemory l, params := p } else none

end Sys2Proof.Machine
end

