-- ==== Sys2Proof/Machine/Driver.lean ====
section
/-! DEFINITION. The driver: what the host of a running CORE may do between steps (60_exceptions.md R116, R137). -/

namespace Sys2Proof.Machine

/-- The outcome of one requested step as the driver sees it (R116). -/
inductive StepReport where
  | ok
  | unsupported (w : Word)
  | fatal (reason : FatalReason)
deriving DecidableEq, Repr

/-- The numeric code of an outcome (R116, D18). -/
def StepReport.code : StepReport → Nat
  | .ok => 0
  | .unsupported _ => 1
  | .fatal reason => reason.code

/-- Request a step: the state it leaves and its outcome; nothing while the CORE is faulted, which has no step (R61, R62,
R116). An unsupported step changes no state; its sound event output is false (R69, R117; log 3). -/
def requestStep (s : State) : Option (State × StepReport) :=
  match step s with
  | .next t => some (t, .ok)
  | .fault (.fatal reason after) => some (after, .fatal reason)
  | .fault (.noStep _) => none
  | .refused r => r.word?.map (fun w => ({ s with soundEvent := false }, .unsupported w))

/-- A CORE under its driver, between two steps: the CORE's state, and the outcome the driver has of it, that is the outcome
of the latest requested step while no skip and no restart came after it (R116, R137; log 22). -/
structure Session where
  core : State
  last : Option StepReport
deriving DecidableEq, Repr

/-- A driver that has requested no step yet. -/
def Session.start (s : State) : Session := { core := s, last := none }

/-- Request a step; its outcome is what the driver has now (R137). -/
def Session.request (d : Session) : Option Session :=
  (requestStep d.core).map (fun r => { core := r.1, last := some r.2 })

/-- The driver's skip of an unsupported word, allowed only after the outcome `Unsupported(w)`: `pc <- (pc + 2) mod 2^16` and
nothing else; a second skip needs a new outcome (R137, D19; log 22). -/
def Session.skip (d : Session) : Option Session :=
  match d.last with
  | some (.unsupported _) => some { core := d.core.advance, last := none }
  | some .ok => none
  | some (.fatal _) => none
  | none => none

/-- Restart: reset and a new launch. The parameters, the key states (which the input collaborator owns) and the count of
random draws stay (R137, R139, R141; log 22). -/
def Session.restart (l : LaunchData) (d : Session) : Option Session :=
  (launch d.core.params l).map
    (fun t => { core := { t with keys := d.core.keys, draws := d.core.draws }, last := none })

/-- The input collaborator's write of KeyState between two steps; the outcome the driver has stays (R50, R131, R137). -/
def Session.writeKeys (keys : Vector Bool 16) (d : Session) : Session :=
  { d with core := { d.core with keys := keys } }

/-- The renderer's clearing of FB_REDRAW between two steps; the outcome the driver has stays (R130, R137). -/
def Session.clearRedraw (d : Session) : Session := { d with core := d.core.setRedraw false }

/-- The actions that change a running CORE's state; a stop (the end of the list of actions) and the pacing of steps change
nothing (R137). -/
inductive HostAction where
  /-- Request a step. -/
  | requestStep
  /-- Skip an unsupported word. -/
  | skipUnsupported
  /-- Restart with a new launch. -/
  | restart (l : LaunchData)
  /-- The input collaborator writes KeyState (R50, R131). -/
  | writeKeys (keys : Vector Bool 16)
  /-- The renderer clears FB_REDRAW (R130). -/
  | clearRedraw
deriving DecidableEq, Repr

/-- What one action leaves, or nothing where R137 does not allow the action. -/
def HostAction.apply : HostAction → Session → Option Session
  | .requestStep, d => d.request
  | .skipUnsupported, d => d.skip
  | .restart l, d => d.restart l
  | .writeKeys keys, d => some (d.writeKeys keys)
  | .clearRedraw, d => some d.clearRedraw

/-- A run of the CORE under its driver: the actions in order, each between two steps (R50, R137). -/
def runActions : List HostAction → Session → Option Session
  | [], d => some d
  | a :: as, d => (a.apply d).bind (runActions as)

end Sys2Proof.Machine
end

