-- ==== Sys2Proof/Safety.lean ====
section
/-! DEFINITION. The terms in which claims are stated: frames, the invariant of reachable states, safe runs. -/

namespace Sys2Proof.Machine

/-- The parts of the state beside the general registers and pc. -/
inductive Part where
  | index
  | stack
  | sp
  | delay
  | sound
  | fault
  | mem
  | fb
  | redraw
  | keys
  | soundEvent
  | draws
  | params
deriving DecidableEq, Repr

/-- The part holds in `t` what it holds in `s`; of memory, every address reads the same. -/
def Part.same : Part → State → State → Prop
  | .index, s, t => t.index = s.index
  | .stack, s, t => t.stack = s.stack
  | .sp, s, t => t.sp = s.sp
  | .delay, s, t => t.delay = s.delay
  | .sound, s, t => t.sound = s.sound
  | .fault, s, t => t.fault = s.fault
  | .mem, s, t => ∀ a, t.mem.read a = s.mem.read a
  | .fb, s, t => ∀ p, t.fb.pixel p = s.fb.pixel p
  | .redraw, s, t => t.redraw = s.redraw
  | .keys, s, t => t.keys = s.keys
  | .soundEvent, s, t => t.soundEvent = s.soundEvent
  | .draws, s, t => t.draws = s.draws
  | .params, s, t => t.params = s.params

/-- The frame: from `s` to `t` every register but those of `regs` and every part but those of `parts` is unchanged. It says
nothing of pc. -/
def OnlyChanges (regs : List RegIdx) (parts : List Part) (s t : State) : Prop :=
  (∀ k, k ∉ regs → t.reg k = s.reg k) ∧ ∀ p, p ∉ parts → p.same s t

/-- The invariant of reachable states: memory is in its canonical form with every listed address below 4096 (R35), pc is
at most 0x10FE and every stack entry is the address of a word that was fetched, at most 0xFFE (R24). -/
def State.Inv (s : State) : Prop :=
  s.mem.wf ∧ s.pc.toNat ≤ 0x10FE ∧ ∀ k : Fin 16, s.stack[k].toNat ≤ 0xFFE

/-- What the outcome that the driver has says of the CORE: after `Ok` it is not faulted; after `Unsupported(w)` another
request would report the same word, with no sound event; after `Fatal(reason)` FAULT holds the reason, with no sound event
(R62, R117, R118; the sound event is log 3). -/
def StepReport.TrueOf : StepReport → State → Prop
  | .ok, s => s.fault = none
  | .unsupported w, s => step s = .refused (.unsupported w) ∧ s.soundEvent = false
  | .fatal reason, s => s.fault = some reason ∧ s.soundEvent = false

/-- The invariant of a CORE under its driver: the CORE's own, and the outcome that the driver has is true of it. -/
def Session.Inv (d : Session) : Prop :=
  d.core.Inv ∧ ∀ report, d.last = some report → report.TrueOf d.core

/-- The word that the next fetch reads is `w`, and both its bytes exist (R40, R64). -/
def State.Fetches (s : State) (w : Word) : Prop :=
  s.pc.toNat + 1 < 4096 ∧ s.mem.read s.pc.toNat ++ s.mem.read (s.pc.toNat + 1) = w

/-- The next state, if the outcome is one. -/
def nextState? : Result → Option State
  | .next s => some s
  | .fault _ => none
  | .refused _ => none

/-- The fatal reason, if the outcome is fatal. -/
def fatalReason? : Result → Option FatalReason
  | .next _ => none
  | .fault (.fatal reason _) => some reason
  | .fault (.noStep _) => none
  | .refused _ => none

/-- A safe run of `k` steps: every one of them completes (outcome `Ok`, R116). -/
def SafeFor : Nat → State → Prop
  | 0, _ => True
  | k + 1, s => ∃ t, step s = .next t ∧ SafeFor k t

end Sys2Proof.Machine
end

