-- ==== Sys2Proof/Certificates/Slice0/Obligations.lean ====
section
/-! DEFINITION. The statements for the provers, from the numbered rules of spec/. -/

open Sys2Proof
open Sys2Proof.Machine

/-! ## Encoding -/

/-- The word `v`, written as a pattern of R55 with its fields, is the instruction `i` (R60; the opcode numbers are log 11). -/
def Sys2Proof.IsWordOf (v : Nat) (i : Instr) : Prop :=
  decodeWord (BitVec.ofNat 16 v) = .instr i

/-- Decoding the word of any instruction, with any operands, gives it back (R55, R56, R60; the opcode numbers are general
knowledge, log 11). -/
def Obligations.DecodeOfEncode : Prop :=
  ∀ i : Instr, decodeWord (encode i) = .instr i

/-- Each supported word has one meaning: the word of the instruction it decodes to is the word itself (R58). -/
def Obligations.EncodeOfDecode : Prop :=
  ∀ (w : Word) (i : Instr), decodeWord w = .instr i → encode i = w

/-- Words written out in the spec, one or more of each of the sixteen opcode families (R17), decode as it says: the examples
of R60, R74, R97 and R98 and words of 95_test_vectors.md; the last is an unsupported word of family 0 (the numbers are log
11). -/
def Obligations.DecodesWordsOfTheSpec : Prop :=
  decodeWord 0x00E0#16 = .instr .cls ∧ decodeWord 0x00EE#16 = .instr .ret
    ∧ decodeWord 0x1ABC#16 = .instr (.jp 0xABC#12) ∧ decodeWord 0x2206#16 = .instr (.call 0x206#12)
    ∧ decodeWord 0x3342#16 = .instr (.seImm 3 0x42#8) ∧ decodeWord 0x4A42#16 = .instr (.sneImm 10 0x42#8)
    ∧ decodeWord 0x5AB0#16 = .instr (.seReg 10 11) ∧ decodeWord 0x6005#16 = .instr (.ldImm 0 0x05#8)
    ∧ decodeWord 0x7AFF#16 = .instr (.addImm 10 0xFF#8) ∧ decodeWord 0x8AB6#16 = .instr (.shr 10 11)
    ∧ decodeWord 0x9AB0#16 = .instr (.sneReg 10 11) ∧ decodeWord 0xA2F0#16 = .instr (.ldI 0x2F0#12)
    ∧ decodeWord 0xB300#16 = .instr (.jpV0 0x300#12) ∧ decodeWord 0xC30F#16 = .instr (.rnd 3 0x0F#8)
    ∧ decodeWord 0xD125#16 = .instr (.drw 1 2 5) ∧ decodeWord 0xE5A1#16 = .instr (.sknp 5)
    ∧ decodeWord 0xF507#16 = .instr (.ldVxDt 5) ∧ decodeWord 0xFA55#16 = .instr (.ldMemVx 10)
    ∧ decodeWord 0x0123#16 = .unknown 0x0123#16

/-- The decoder of R56 and the table of R55 agree on every word: a decoded word matches exactly one row, its own; an
unknown word matches none. -/
def Obligations.DecoderAgreesWithOpcodeTable : Prop :=
  ∀ w : Word,
    (∀ i, decodeWord w = .instr i →
      ∃ r ∈ opcodeTable, r.mnemonic = i.mnemonic ∧ r.matchesWord w = true
        ∧ ∀ r' ∈ opcodeTable, r'.matchesWord w = true → r' = r)
    ∧ (∀ u, decodeWord w = .unknown u → u = w ∧ ∀ r ∈ opcodeTable, r.matchesWord w = false)

/-- The unsupported words are exactly those R57 lists (the exact match of sub-operation fields is decision D14, log 19). -/
def Obligations.UnsupportedWordsAreThoseListed : Prop :=
  ∀ w : Word, decodeWord w = .unknown w ↔
    ((w.toNat / 4096 = 0x0 ∧ w ≠ 0x00E0#16 ∧ w ≠ 0x00EE#16)
      ∨ (w.toNat / 4096 = 0x5 ∧ w.toNat % 16 ≠ 0)
      ∨ (w.toNat / 4096 = 0x8 ∧ w.toNat % 16 ∈ [0x8, 0x9, 0xA, 0xB, 0xC, 0xD, 0xF])
      ∨ (w.toNat / 4096 = 0x9 ∧ w.toNat % 16 ≠ 0)
      ∨ (w.toNat / 4096 = 0xE ∧ w.toNat % 256 ∉ [0x9E, 0xA1])
      ∨ (w.toNat / 4096 = 0xF
          ∧ w.toNat % 256 ∉ [0x07, 0x0A, 0x15, 0x18, 0x1E, 0x29, 0x33, 0x55, 0x65]))

/-! ## The step -/

/-- A step of a CORE that is not faulted runs the decoded instruction: a completed execute part is followed by the timer
phase and by nothing else; a fault of the execute part is the step's (R61, R65). -/
def Obligations.StepRunsDecodedInstruction : Prop :=
  ∀ (s : State) (w : Word) (i : Instr), s.fault = none → s.Fetches w → decodeWord w = .instr i →
    (∀ t, exec i s = .next t →
      ∃ u, step s = .next u ∧ u.pc = t.pc ∧ OnlyChanges [] [.delay, .sound, .soundEvent] t u
        ∧ u.delay.toNat = t.delay.toNat - 1 ∧ u.sound.toNat = t.sound.toNat - 1
        ∧ u.soundEvent = decide (t.sound.toNat = 1))
    ∧ (∀ f, exec i s = .fault f → step s = .fault f)

/-- The fetch: at pc up to 0xFFE the word is the two bytes there, high byte first; at 0xFFF the step is fatal with address
0x1000, above it with address pc (R39, R40, R64, R121). -/
def Obligations.FetchReadsTwoBytesOrIsFatal : Prop :=
  ∀ s : State,
    (s.pc.toNat ≤ 0xFFE →
      ∃ w, fetch s = .word w
        ∧ w.toNat = (s.mem.read s.pc.toNat).toNat * 256 + (s.mem.read (s.pc.toNat + 1)).toNat)
    ∧ (s.fault = none → s.pc.toNat = 0xFFF → ∃ u, step s = .fault (.fatal (.memoryOutOfRange 0x1000) u))
    ∧ (s.fault = none → 0x1000 ≤ s.pc.toNat → ∃ u, step s = .fault (.fatal (.memoryOutOfRange s.pc.toNat) u))

/-- A word that is no instruction is reported with its value, on every request, and the driver finds the state as it was:
only the sound event output of the request is false (R117, D15; the output is log 3). -/
def Obligations.UnsupportedWordIsReported : Prop :=
  ∀ (s : State) (w : Word), s.fault = none → s.Fetches w → decodeWord w = .unknown w →
    step s = .refused (.unsupported w)
      ∧ ∃ t, requestStep s = some (t, .unsupported w) ∧ t.pc = s.pc ∧ OnlyChanges [] [.soundEvent] s t
        ∧ t.soundEvent = false ∧ requestStep t = some (t, .unsupported w)

/-- A faulted CORE has no step, and no action of the driver but a restart clears FAULT (R62, R119, D16). -/
def Obligations.FaultIsStickyUntilRestart : Prop :=
  ∀ (d : Session) (reason : FatalReason), d.core.fault = some reason →
    step d.core = .fault (.noStep reason) ∧ HostAction.requestStep.apply d = none
      ∧ ∀ (as : List HostAction) (e : Session), (∀ l, HostAction.restart l ∉ as) →
          runActions as d = some e → e.core.fault = some reason

/-- A fatal step changes nothing but FAULT, which records the reason (R63, R118, R125, D15, D16); its sound event output is
false (R69; log 3). -/
def Obligations.FatalStepSetsOnlyFault : Prop :=
  ∀ (s : State) (reason : FatalReason) (after : State), step s = .fault (.fatal reason after) →
    s.fault = none ∧ after.fault = some reason ∧ after.pc = s.pc ∧ after.soundEvent = false
      ∧ OnlyChanges [] [.fault, .soundEvent] s after

/-- The execute part never refuses, each fatal reason comes from the instructions and the condition R116 lists, and a fatal
execute part leaves the state as it was but for FAULT (R63, R116, R118, D15, D18) and the sound event output (log 3). -/
def Obligations.FatalReasonsHaveTheirInstructions : Prop :=
  ∀ (i : Instr) (s : State),
    (∀ r, exec i s ≠ .refused r) ∧ (∀ reason, exec i s ≠ .fault (.noStep reason))
      ∧ ∀ (reason : FatalReason) (after : State), exec i s = .fault (.fatal reason after) →
        after.fault = some reason ∧ after.pc = s.pc ∧ OnlyChanges [] [.fault, .soundEvent] s after ∧
        match reason with
        | .stackOverflow => (∃ nnn, i = .call nnn) ∧ s.sp.val = 16
        | .stackUnderflow => i = .ret ∧ s.sp.val = 0
        | .memoryOutOfRange a => 4096 ≤ a ∧ ∃ x, (∃ y n, i = .drw x y n) ∨ i = .ldB x ∨ i = .ldMemVx x ∨ i = .ldVxMem x
        | .keyIndexOutOfRange k => 16 ≤ k.toNat ∧ ∃ x, (i = .skp x ∨ i = .sknp x) ∧ k = s.reg x
        | .indexOverflow => s.params.indexOverflow = .fault ∧ ∃ x, i = .addI x ∧ 0xFFFF < s.index.toNat + (s.reg x).toNat

/-- Each instruction rule ends with exactly one way of writing pc (R66). -/
def Obligations.PcUpdatePolicy : Prop :=
  ∀ (i : Instr) (s t : State), exec i s = .next t →
    match i with
    | .jp nnn => t.pc.toNat = nnn.toNat
    | .call nnn => t.pc.toNat = nnn.toNat
    | .jpV0 nnn => t.pc.toNat = nnn.toNat + (s.reg 0).toNat
    | .ret => ∃ k : Fin 16, k.val + 1 = s.sp.val ∧ t.pc = s.stack[k] + 2#16
    | .ldVxK _ => t.pc = if ∃ k : Fin 16, s.keys[k] = true then s.pc + 2#16 else s.pc
    | .seImm _ _ | .sneImm _ _ | .seReg _ _ | .sneReg _ _ | .skp _ | .sknp _ =>
      t.pc = s.pc + 2#16 ∨ t.pc = s.pc + 4#16
    | _ => t.pc = s.pc + 2#16

/-- The timer phase runs on every completed step, on what the execute part left, and on no other step (R67). -/
def Obligations.TimersCountDownOncePerCompletedStep : Prop :=
  (∀ s u : State, step s = .next u →
    ∃ w i t, s.Fetches w ∧ decodeWord w = .instr i ∧ exec i s = .next t
      ∧ u.soundEvent = decide (t.sound = 1#8)
      ∧ u.delay = (if 0 < t.delay.toNat then t.delay - 1#8 else t.delay)
      ∧ u.sound = (if 0 < t.sound.toNat then t.sound - 1#8 else t.sound))
  ∧ (∀ (s : State) (reason : FatalReason) (after : State), step s = .fault (.fatal reason after) →
      after.delay = s.delay ∧ after.sound = s.sound)
  ∧ (∀ (s t : State) (w : Word), requestStep s = some (t, .unsupported w) →
      t.delay = s.delay ∧ t.sound = s.sound)

/-- The sound event is true on exactly the steps with outcome `Ok` whose timer phase finds ST = 1, and false on every
other requested step (R69). -/
def Obligations.SoundEventMarksTheEdge : Prop :=
  ∀ (s t : State) (report : StepReport), requestStep s = some (t, report) →
    (t.soundEvent = true ↔
      report = .ok ∧ ∃ w i u, s.Fetches w ∧ decodeWord w = .instr i ∧ exec i s = .next u ∧ u.sound = 1#8)

/-- A timer written by LD DT, Vx or LD ST, Vx ends its own step one lower; LD Vx, DT copies the value before the step's
decrement (R68). -/
def Obligations.TimerWriteThenDecrementInOneStep : Prop :=
  ∀ (s : State) (w : Word) (x : RegIdx), s.fault = none → s.Fetches w →
    (decodeWord w = .instr (.ldDtVx x) → ∃ u, step s = .next u ∧ u.delay.toNat = (s.reg x).toNat - 1)
    ∧ (decodeWord w = .instr (.ldStVx x) → ∃ u, step s = .next u ∧ u.sound.toNat = (s.reg x).toNat - 1
        ∧ (u.soundEvent = true ↔ s.reg x = 1#8))
    ∧ (decodeWord w = .instr (.ldVxDt x) → ∃ u, step s = .next u ∧ u.reg x = s.delay
        ∧ u.delay.toNat = s.delay.toNat - 1)

/-! ## Invariants, reset and launch -/

/-- The invariant of reachable states holds at reset, and that of a driver that has requested no step yet (R24, R34, R35). -/
def Obligations.InvariantAtReset : Prop := State.reset.Inv ∧ (Session.start State.reset).Inv

/-- Every step keeps the invariant, from every state that has it: memory stays canonical (log 29) and inside the address
space, pc and the stack entries stay in the ranges of R24. -/
def Obligations.StepKeepsInvariant : Prop :=
  ∀ s t : State, s.Inv → step s = .next t → t.Inv

/-- So does every sequence of the driver's actions, a restart with any launch among them; and the outcome the driver has of
the CORE stays true of it (R24, R62, R117, R118, R137; log 3, log 22). -/
def Obligations.DriverKeepsInvariant : Prop :=
  ∀ (as : List HostAction) (d e : Session), d.Inv → runActions as d = some e → e.Inv

/-- The reset values of R34 (ENTRY is decision D3, log 10; the framebuffer, FB_REDRAW and KEY are decision D21, log 9). -/
def Obligations.ResetValues : Prop :=
  (∀ x, State.reset.reg x = 0#8) ∧ State.reset.index = 0#16 ∧ State.reset.pc = 0x200#16
    ∧ (∀ k : Fin 16, State.reset.stack[k] = 0#16) ∧ State.reset.sp = 0
    ∧ State.reset.delay = 0#8 ∧ State.reset.sound = 0#8 ∧ State.reset.fault = none
    ∧ (∀ a, State.reset.mem.read a = 0#8) ∧ (∀ p, State.reset.fb.pixel p = false)
    ∧ State.reset.redraw = false ∧ (∀ k : Fin 16, State.reset.keys[k] = false) ∧ State.reset.soundEvent = false

/-- The launch state: font at 0x000, image at 0x200, zero elsewhere, every other part as at reset; an ill-formed launch is
refused (R45, R140; FONT is D26, log 6; the refusal is D27, log 23). -/
def Obligations.LaunchState : Prop :=
  ∀ (p : Params) (l : LaunchData),
    (l.font.length = 80 → l.image.length ≤ 3584 →
      ∃ t, launch p l = some t ∧ t.pc = 0x200#16 ∧ t.params = p ∧ OnlyChanges [] [.mem, .params] State.reset t
        ∧ ∀ a, t.mem.read a =
            if a < 80 then l.font.getD a 0#8
            else if 0x200 ≤ a then l.image.getD (a - 0x200) 0#8 else 0#8)
    ∧ (l.font.length ≠ 80 ∨ 3584 < l.image.length → launch p l = none)

/-- Memory is a plain array: a write changes exactly the one addressed byte (R43), and keeps the canonical form (the
model's own storage form, log 29). -/
def Obligations.WriteChangesExactlyOneByte : Prop :=
  ∀ (m : Memory) (a : Nat) (v : Byte), m.wf → a < 4096 →
    (m.write a v).wf ∧ ∀ b, (m.write a v).read b = if b = a then v else m.read b

/-! ## Which instructions write what -/

/-- VF is written implicitly by exactly six instructions, which leave 0 or 1 in it; any other instruction that changes it
names register 15 as its destination (R19). -/
def Obligations.FlagRegisterWriters : Prop :=
  ∀ (i : Instr) (s t : State), exec i s = .next t →
    match i with
    | .addReg _ _ | .subReg _ _ | .subnReg _ _ | .shr _ _ | .shl _ _ | .drw _ _ _ => t.reg 15 = 0#8 ∨ t.reg 15 = 1#8
    | .ldImm x _ | .addImm x _ | .ldReg x _ | .orReg x _ | .andReg x _ | .xorReg x _ | .rnd x _ | .ldVxDt x | .ldVxK x
    | .ldVxMem x => x ≠ 15 → t.reg 15 = s.reg 15
    | _ => t.reg 15 = s.reg 15

/-- The writers of every other part: I (R21), the stack and SP (R25, R26), the timers (R27), memory (R41), the pixels (R31,
C2), FB_REDRAW (R31, never cleared); KEY (R32), FAULT and the parameters by no instruction. -/
def Obligations.EachPartHasItsWriters : Prop :=
  ∀ (i : Instr) (s t : State), exec i s = .next t →
    (t.index ≠ s.index → (∃ nnn, i = .ldI nnn) ∨ ∃ x, i = .addI x ∨ i = .ldF x)
    ∧ (t.stack ≠ s.stack → ∃ nnn, i = .call nnn)
    ∧ (t.sp ≠ s.sp → i = .ret ∨ ∃ nnn, i = .call nnn)
    ∧ (t.delay ≠ s.delay → ∃ x, i = .ldDtVx x)
    ∧ (t.sound ≠ s.sound → ∃ x, i = .ldStVx x)
    ∧ (t.mem ≠ s.mem → ∃ x, i = .ldB x ∨ i = .ldMemVx x)
    ∧ (t.fb ≠ s.fb → i = .cls ∨ ∃ x y n, i = .drw x y n)
    ∧ (t.redraw ≠ s.redraw → t.redraw = true ∧ ∃ x y n, i = .drw x y n)
    ∧ t.keys = s.keys ∧ t.fault = s.fault ∧ t.params = s.params ∧ t.soundEvent = s.soundEvent

/-- No instruction reads ST: two states that differ only in ST give the same outcome, but for ST itself (R27). -/
def Obligations.SoundTimerIsNotRead : Prop :=
  ∀ (i : Instr) (s : State) (v : Byte),
    (∀ t, exec i s = .next t →
      ∃ t', exec i { s with sound := v } = .next t' ∧ { t' with sound := t.sound } = t)
    ∧ (∀ reason u, exec i s = .fault (.fatal reason u) →
      exec i { s with sound := v } = .fault (.fatal reason { u with sound := v }))

/-- A stack entry at index SP or above is stale and no instruction reads it: two states that differ only there give the
same outcome, but for stale entries (R25). -/
def Obligations.StaleStackEntriesAreNotRead : Prop :=
  ∀ (i : Instr) (s : State) (st : Vector Word 16), (∀ k : Fin 16, k.val < s.sp.val → st[k] = s.stack[k]) →
    (∀ t, exec i s = .next t →
      ∃ t', exec i { s with stack := st } = .next t' ∧ { t' with stack := t.stack } = t
        ∧ ∀ k : Fin 16, k.val < t.sp.val → t'.stack[k] = t.stack[k])
    ∧ (∀ reason u, exec i s = .fault (.fatal reason u) →
      exec i { s with stack := st } = .fault (.fatal reason { u with stack := st }))

/-! ## Control flow -/

/-- JP addr (R73). -/
def Obligations.JumpSetsPc : Prop :=
  ∀ (nnn : Addr12) (s : State),
    IsWordOf (0x1000 + nnn.toNat) (.jp nnn)
    ∧ ∃ t, exec (.jp nnn) s = .next t ∧ t.pc.toNat = nnn.toNat ∧ OnlyChanges [] [] s t

/-- JP V0, addr: the exact sum, not masked (R74; decision D8, log 14). -/
def Obligations.JumpWithOffsetAddsV0 : Prop :=
  ∀ (nnn : Addr12) (s : State),
    IsWordOf (0xB000 + nnn.toNat) (.jpV0 nnn)
    ∧ ∃ t, exec (.jpV0 nnn) s = .next t ∧ t.pc.toNat = nnn.toNat + (s.reg 0).toNat ∧ OnlyChanges [] [] s t

/-- CALL addr: the address of the CALL word goes to `STACK[SP]`, SP goes up by one, pc to the target; with a full stack
the step is fatal (R75; what is pushed is decision D7, log 13). -/
def Obligations.CallPushesItsAddress : Prop :=
  ∀ (nnn : Addr12) (s : State),
    IsWordOf (0x2000 + nnn.toNat) (.call nnn)
    ∧ (∀ k : Fin 16, s.sp.val = k.val →
      ∃ t, exec (.call nnn) s = .next t ∧ t.pc.toNat = nnn.toNat ∧ t.sp.val = k.val + 1 ∧ t.stack[k] = s.pc
        ∧ (∀ j : Fin 16, j ≠ k → t.stack[j] = s.stack[j]) ∧ OnlyChanges [] [.stack, .sp] s t)
    ∧ (s.sp.val = 16 → ∃ u, exec (.call nnn) s = .fault (.fatal .stackOverflow u))

/-- RET: SP goes down by one, pc to the popped entry plus 2, the entry is not cleared; with an empty stack the step is
fatal (R76; the plus 2 is decision D7, log 13). -/
def Obligations.ReturnPopsTheStack : Prop :=
  ∀ s : State,
    IsWordOf 0x00EE .ret
    ∧ (∀ k : Fin 16, s.sp.val = k.val + 1 →
      ∃ t, exec .ret s = .next t ∧ t.sp.val = k.val ∧ t.pc.toNat = (s.stack[k].toNat + 2) % 65536
        ∧ OnlyChanges [] [.sp] s t)
    ∧ (s.sp.val = 0 → ∃ u, exec .ret s = .fault (.fatal .stackUnderflow u))

/-- A CALL and the RET after it come back to the word after the CALL, with the stack pointer as before and nothing else
changed below it (R75, R76, C8; decision D7, log 13). -/
def Obligations.CallThenReturnResumesAfterTheCall : Prop :=
  ∀ (nnn : Addr12) (s t : State), exec (.call nnn) s = .next t →
    ∃ u, exec .ret t = .next u ∧ u.pc = s.pc + 2#16 ∧ u.sp = s.sp ∧ OnlyChanges [] [.stack] s u
      ∧ ∀ k : Fin 16, k.val < s.sp.val → u.stack[k] = s.stack[k]

/-- A JP to its own address is a safe run of any length: it loops forever (R73). -/
def Obligations.JumpToItselfRunsForever : Prop :=
  ∀ (s : State) (w : Word) (nnn : Addr12), s.fault = none → s.Fetches w → decodeWord w = .instr (.jp nnn) →
    s.pc.toNat = nnn.toNat → ∀ k : Nat, SafeFor k s

/-! ## Skips -/

/-- SE Vx, nn and SNE Vx, nn (R77, R78, R79). -/
def Obligations.SkipsOnImmediate : Prop :=
  ∀ (x : RegIdx) (nn : Byte) (s : State),
    IsWordOf (0x3000 + x.val * 256 + nn.toNat) (.seImm x nn)
    ∧ IsWordOf (0x4000 + x.val * 256 + nn.toNat) (.sneImm x nn)
    ∧ (∃ t, exec (.seImm x nn) s = .next t ∧ OnlyChanges [] [] s t
      ∧ t.pc.toNat = (s.pc.toNat + if s.reg x = nn then 4 else 2) % 65536)
    ∧ (∃ t, exec (.sneImm x nn) s = .next t ∧ OnlyChanges [] [] s t
      ∧ t.pc.toNat = (s.pc.toNat + if s.reg x = nn then 2 else 4) % 65536)

/-- SE Vx, Vy and SNE Vx, Vy (R77, R80, R81). -/
def Obligations.SkipsOnRegister : Prop :=
  ∀ (x y : RegIdx) (s : State),
    IsWordOf (0x5000 + x.val * 256 + y.val * 16) (.seReg x y)
    ∧ IsWordOf (0x9000 + x.val * 256 + y.val * 16) (.sneReg x y)
    ∧ (∃ t, exec (.seReg x y) s = .next t ∧ OnlyChanges [] [] s t
      ∧ t.pc.toNat = (s.pc.toNat + if s.reg x = s.reg y then 4 else 2) % 65536)
    ∧ (∃ t, exec (.sneReg x y) s = .next t ∧ OnlyChanges [] [] s t
      ∧ t.pc.toNat = (s.pc.toNat + if s.reg x = s.reg y then 2 else 4) % 65536)

/-! ## Register moves, arithmetic and logic -/

/-- LD Vx, nn and LD Vx, Vy (R84, R86). -/
def Obligations.MovesWriteTheDestination : Prop :=
  ∀ (x y : RegIdx) (nn : Byte) (s : State),
    IsWordOf (0x6000 + x.val * 256 + nn.toNat) (.ldImm x nn)
    ∧ IsWordOf (0x8000 + x.val * 256 + y.val * 16) (.ldReg x y)
    ∧ (∃ t, exec (.ldImm x nn) s = .next t ∧ t.reg x = nn ∧ t.pc = s.pc + 2#16 ∧ OnlyChanges [x] [] s t)
    ∧ (∃ t, exec (.ldReg x y) s = .next t ∧ t.reg x = s.reg y ∧ t.pc = s.pc + 2#16 ∧ OnlyChanges [x] [] s t)

/-- ADD Vx, nn wraps modulo 256 and writes no flag (R85). -/
def Obligations.AddImmediateWrapsWithoutFlag : Prop :=
  ∀ (x : RegIdx) (nn : Byte) (s : State),
    IsWordOf (0x7000 + x.val * 256 + nn.toNat) (.addImm x nn)
    ∧ ∃ t, exec (.addImm x nn) s = .next t ∧ (t.reg x).toNat = ((s.reg x).toNat + nn.toNat) % 256
      ∧ t.pc = s.pc + 2#16 ∧ OnlyChanges [x] [] s t

/-- OR, AND and XOR work bit by bit and write no flag (R88, R89, R90; that VF is not written is decision D13, log 15). -/
def Obligations.LogicIsBitwiseWithoutFlag : Prop :=
  ∀ (x y : RegIdx) (s : State),
    IsWordOf (0x8001 + x.val * 256 + y.val * 16) (.orReg x y)
    ∧ IsWordOf (0x8002 + x.val * 256 + y.val * 16) (.andReg x y)
    ∧ IsWordOf (0x8003 + x.val * 256 + y.val * 16) (.xorReg x y)
    ∧ (∃ t, exec (.orReg x y) s = .next t ∧ t.pc = s.pc + 2#16 ∧ OnlyChanges [x] [] s t
      ∧ ∀ b < 8, (t.reg x).getLsbD b = ((s.reg x).getLsbD b || (s.reg y).getLsbD b))
    ∧ (∃ t, exec (.andReg x y) s = .next t ∧ t.pc = s.pc + 2#16 ∧ OnlyChanges [x] [] s t
      ∧ ∀ b < 8, (t.reg x).getLsbD b = ((s.reg x).getLsbD b && (s.reg y).getLsbD b))
    ∧ (∃ t, exec (.xorReg x y) s = .next t ∧ t.pc = s.pc + 2#16 ∧ OnlyChanges [x] [] s t
      ∧ ∀ b < 8, (t.reg x).getLsbD b = ((s.reg x).getLsbD b ^^ (s.reg y).getLsbD b))

/-- ADD Vx, Vy: the sum modulo 256, VF = 1 iff it exceeds 255; with x = 15 VF ends as the flag (R91; that the flag is
written last is decision D5, log 17). -/
def Obligations.AddSetsCarry : Prop :=
  ∀ (x y : RegIdx) (s : State),
    IsWordOf (0x8004 + x.val * 256 + y.val * 16) (.addReg x y)
    ∧ ∃ t, exec (.addReg x y) s = .next t ∧ t.pc = s.pc + 2#16 ∧ OnlyChanges [x, 15] [] s t
      ∧ (x ≠ 15 → (t.reg x).toNat = ((s.reg x).toNat + (s.reg y).toNat) % 256)
      ∧ t.reg 15 = if 255 < (s.reg x).toNat + (s.reg y).toNat then 1#8 else 0#8

/-- SUB Vx, Vy and SUBN Vx, Vy: the difference modulo 256, VF = 1 iff there is no borrow; with x = 15 VF ends as the flag
(R92, R93; that the flag is written last is decision D5, log 17). -/
def Obligations.SubtractionsSetNoBorrow : Prop :=
  ∀ (x y : RegIdx) (s : State),
    IsWordOf (0x8005 + x.val * 256 + y.val * 16) (.subReg x y)
    ∧ IsWordOf (0x8007 + x.val * 256 + y.val * 16) (.subnReg x y)
    ∧ (∃ t, exec (.subReg x y) s = .next t ∧ t.pc = s.pc + 2#16 ∧ OnlyChanges [x, 15] [] s t
      ∧ (x ≠ 15 → ((t.reg x).toNat : Int) = ((s.reg x).toNat - (s.reg y).toNat : Int) % 256)
      ∧ t.reg 15 = if (s.reg y).toNat ≤ (s.reg x).toNat then 1#8 else 0#8)
    ∧ (∃ t, exec (.subnReg x y) s = .next t ∧ t.pc = s.pc + 2#16 ∧ OnlyChanges [x, 15] [] s t
      ∧ (x ≠ 15 → ((t.reg x).toNat : Int) = ((s.reg y).toNat - (s.reg x).toNat : Int) % 256)
      ∧ t.reg 15 = if (s.reg x).toNat ≤ (s.reg y).toNat then 1#8 else 0#8)

/-- SHR and SHL shift by one the register SHIFT_SOURCE selects, under either setting, and put the bit shifted out in VF;
with x = 15 VF ends as that bit (R95, R96; SHIFT_SOURCE is decision D4, log 4, flag last D5, log 17). -/
def Obligations.ShiftsPutTheLostBitInTheFlag : Prop :=
  ∀ (x y : RegIdx) (s : State) (v : Byte), v = s.reg (if s.params.shiftSource = .X then x else y) →
    IsWordOf (0x8006 + x.val * 256 + y.val * 16) (.shr x y)
    ∧ IsWordOf (0x800E + x.val * 256 + y.val * 16) (.shl x y)
    ∧ (∃ t, exec (.shr x y) s = .next t ∧ t.pc = s.pc + 2#16 ∧ OnlyChanges [x, 15] [] s t
      ∧ (x ≠ 15 → (t.reg x).toNat = v.toNat / 2) ∧ (t.reg 15).toNat = v.toNat % 2)
    ∧ (∃ t, exec (.shl x y) s = .next t ∧ t.pc = s.pc + 2#16 ∧ OnlyChanges [x, 15] [] s t
      ∧ (x ≠ 15 → (t.reg x).toNat = v.toNat * 2 % 256) ∧ (t.reg 15).toNat = v.toNat / 128)

/-- RND Vx, nn: the random byte of this draw, whatever it is, masked with nn; the next draw is another one (R97, R132; the
random byte is the free value of log 7). -/
def Obligations.RandomIsMasked : Prop :=
  ∀ (x : RegIdx) (nn : Byte) (s : State),
    IsWordOf (0xC000 + x.val * 256 + nn.toNat) (.rnd x nn)
    ∧ ∃ t, exec (.rnd x nn) s = .next t ∧ t.reg x = Config.randByte s.draws &&& nn ∧ t.draws = s.draws + 1
      ∧ t.pc = s.pc + 2#16 ∧ OnlyChanges [x] [.draws] s t
      ∧ ∀ b < 8, nn.getLsbD b = false → (t.reg x).getLsbD b = false

/-! ## Index register and memory -/

/-- LD I, addr and LD F, Vx (R98, R115). -/
def Obligations.IndexLoads : Prop :=
  ∀ (nnn : Addr12) (x : RegIdx) (s : State),
    IsWordOf (0xA000 + nnn.toNat) (.ldI nnn)
    ∧ IsWordOf (0xF029 + x.val * 256) (.ldF x)
    ∧ (∃ t, exec (.ldI nnn) s = .next t ∧ t.index.toNat = nnn.toNat ∧ t.pc = s.pc + 2#16 ∧ OnlyChanges [] [.index] s t)
    ∧ (∃ t, exec (.ldF x) s = .next t ∧ t.index.toNat = (s.reg x).toNat * 5 ∧ t.pc = s.pc + 2#16
      ∧ OnlyChanges [] [.index] s t)

/-- ADD I, Vx: no flag is written; past 0xFFFF the sum wraps or the step is fatal, as INDEX_OVERFLOW says (R99; decisions
D9 and D10, log 5 and log 15). -/
def Obligations.AddToIndexWrapsOrFaults : Prop :=
  ∀ (x : RegIdx) (s : State),
    IsWordOf (0xF01E + x.val * 256) (.addI x)
    ∧ (s.index.toNat + (s.reg x).toNat ≤ 0xFFFF ∨ s.params.indexOverflow = .wrap →
      ∃ t, exec (.addI x) s = .next t ∧ t.index.toNat = (s.index.toNat + (s.reg x).toNat) % 65536
        ∧ t.pc = s.pc + 2#16 ∧ OnlyChanges [] [.index] s t)
    ∧ (0xFFFF < s.index.toNat + (s.reg x).toNat → s.params.indexOverflow = .fault →
      ∃ u, exec (.addI x) s = .fault (.fatal .indexOverflow u))

/-- LD B, Vx stores the three decimal digits at I, I + 1, I + 2 and nothing else; a run past 0xFFF is fatal at its lowest
address that does not exist (R100). -/
def Obligations.BcdStoresThreeDigits : Prop :=
  ∀ (x : RegIdx) (s : State), s.mem.wf →
    IsWordOf (0xF033 + x.val * 256) (.ldB x)
    ∧ (s.index.toNat + 2 < 4096 →
      ∃ t, exec (.ldB x) s = .next t ∧ t.pc = s.pc + 2#16 ∧ OnlyChanges [] [.mem] s t
        ∧ (t.mem.read s.index.toNat).toNat = (s.reg x).toNat / 100
        ∧ (t.mem.read (s.index.toNat + 1)).toNat = (s.reg x).toNat / 10 % 10
        ∧ (t.mem.read (s.index.toNat + 2)).toNat = (s.reg x).toNat % 10
        ∧ ∀ a, a < s.index.toNat ∨ s.index.toNat + 2 < a → t.mem.read a = s.mem.read a)
    ∧ (4096 ≤ s.index.toNat + 2 →
      ∃ u, exec (.ldB x) s = .fault (.fatal (.memoryOutOfRange (max s.index.toNat 4096)) u))

/-- LD [I], Vx stores `V[0]` to `V[x]` from I upward and nothing else; a run past 0xFFF is fatal at its lowest address that
does not exist (R101; that I is unchanged is decision D12, log 15). -/
def Obligations.RegisterDumpStoresTheRegisters : Prop :=
  ∀ (x : RegIdx) (s : State), s.mem.wf →
    IsWordOf (0xF055 + x.val * 256) (.ldMemVx x)
    ∧ (s.index.toNat + x.val < 4096 →
      ∃ t, exec (.ldMemVx x) s = .next t ∧ t.pc = s.pc + 2#16 ∧ OnlyChanges [] [.mem] s t
        ∧ (∀ k : RegIdx, k ≤ x → t.mem.read (s.index.toNat + k.val) = s.reg k)
        ∧ ∀ a, a < s.index.toNat ∨ s.index.toNat + x.val < a → t.mem.read a = s.mem.read a)
    ∧ (4096 ≤ s.index.toNat + x.val →
      ∃ u, exec (.ldMemVx x) s = .fault (.fatal (.memoryOutOfRange (max s.index.toNat 4096)) u))

/-- LD Vx, [I] loads `V[0]` to `V[x]` from the bytes at I upward, VF as data when x = 15; a run past 0xFFF is fatal at its
lowest address that does not exist (R102; that I is unchanged is decision D12, log 15). -/
def Obligations.RegisterLoadReadsTheRun : Prop :=
  ∀ (x : RegIdx) (s : State),
    IsWordOf (0xF065 + x.val * 256) (.ldVxMem x)
    ∧ (s.index.toNat + x.val < 4096 →
      ∃ t, exec (.ldVxMem x) s = .next t ∧ t.pc = s.pc + 2#16
        ∧ (∀ k : RegIdx, t.reg k = if k ≤ x then s.mem.read (s.index.toNat + k.val) else s.reg k)
        ∧ ∀ p : Part, p.same s t)
    ∧ (4096 ≤ s.index.toNat + x.val →
      ∃ u, exec (.ldVxMem x) s = .fault (.fatal (.memoryOutOfRange (max s.index.toNat 4096)) u))

/-- LD Vx, [I] is the inverse read of LD [I], Vx: whatever the registers hold in between, they come back (R101, R102). -/
def Obligations.LoadRestoresWhatDumpStored : Prop :=
  ∀ (x : RegIdx) (s t : State) (regs : Vector Byte 16), s.mem.wf → exec (.ldMemVx x) s = .next t →
    ∃ u, exec (.ldVxMem x) { t with regs := regs } = .next u ∧ ∀ k : RegIdx, k ≤ x → u.reg k = s.reg k

/-! ## Timers -/

/-- LD Vx, DT, LD DT, Vx and LD ST, Vx copy between a register and a timer (R103, R104, R105). -/
def Obligations.TimerMoves : Prop :=
  ∀ (x : RegIdx) (s : State),
    IsWordOf (0xF007 + x.val * 256) (.ldVxDt x)
    ∧ IsWordOf (0xF015 + x.val * 256) (.ldDtVx x)
    ∧ IsWordOf (0xF018 + x.val * 256) (.ldStVx x)
    ∧ (∃ t, exec (.ldVxDt x) s = .next t ∧ t.reg x = s.delay ∧ t.pc = s.pc + 2#16 ∧ OnlyChanges [x] [] s t)
    ∧ (∃ t, exec (.ldDtVx x) s = .next t ∧ t.delay = s.reg x ∧ t.pc = s.pc + 2#16 ∧ OnlyChanges [] [.delay] s t)
    ∧ (∃ t, exec (.ldStVx x) s = .next t ∧ t.sound = s.reg x ∧ t.pc = s.pc + 2#16 ∧ OnlyChanges [] [.sound] s t)

/-! ## Display -/

/-- Does a set bit of the sprite of DRW Vx, Vy, n reach the pixel? Row `row` of the sprite is the byte at I + row, its bit
7 - col is column `col`, and both coordinates wrap (R106, R107). -/
def Sys2Proof.SpriteReaches (s : State) (x y : RegIdx) (n : Fin 16) (p : Pixel) : Prop :=
  ∃ row col : Nat, row < n.val ∧ col < 8 ∧ (s.mem.read (s.index.toNat + row)).getLsbD (7 - col) = true
    ∧ p.1.val = ((s.reg x).toNat + col) % 64 ∧ p.2.val = ((s.reg y).toNat + row) % 32

/-- DRW Vx, Vy, n toggles exactly the pixels a set sprite bit reaches, sets VF to 1 iff one of them was set and to 0
otherwise, and sets FB_REDRAW when n > 0; with n = 0 it completes whatever I is (R107, R108; bit order D23, log 12). -/
def Obligations.DrawTogglesTheSpritePixels : Prop :=
  ∀ (x y : RegIdx) (n : Fin 16) (s : State), n.val = 0 ∨ s.index.toNat + n.val ≤ 4096 →
    IsWordOf (0xD000 + x.val * 256 + y.val * 16 + n.val) (.drw x y n)
    ∧ ∃ t, exec (.drw x y n) s = .next t ∧ t.pc = s.pc + 2#16 ∧ OnlyChanges [15] [.fb, .redraw] s t
      ∧ (∀ p, t.fb.pixel p ≠ s.fb.pixel p ↔ SpriteReaches s x y n p)
      ∧ (t.reg 15 = 0#8 ∨ t.reg 15 = 1#8)
      ∧ (t.reg 15 = 1#8 ↔ ∃ p, SpriteReaches s x y n p ∧ s.fb.pixel p = true)
      ∧ t.redraw = (s.redraw || decide (0 < n.val))

/-- DRW whose sprite passes the end of memory is fatal at the lowest address that does not exist (R107, R38). -/
def Obligations.DrawBeyondMemoryIsFatal : Prop :=
  ∀ (x y : RegIdx) (n : Fin 16) (s : State), 0 < n.val → 4096 ≤ s.index.toNat + n.val - 1 →
    ∃ u, exec (.drw x y n) s = .fault (.fatal (.memoryOutOfRange (max s.index.toNat 4096)) u)

/-- Drawing the same sprite twice at the same place restores every pixel, and the second draw reports a collision iff a
pixel that a set sprite bit reaches was clear before the first (R107, R108). -/
def Obligations.DrawingTwiceErases : Prop :=
  ∀ (x y : RegIdx) (n : Fin 16) (s t : State), x ≠ 15 → y ≠ 15 → exec (.drw x y n) s = .next t →
    ∃ u, exec (.drw x y n) t = .next u ∧ (∀ p, u.fb.pixel p = s.fb.pixel p)
      ∧ (u.reg 15 = 1#8 ↔ ∃ p, SpriteReaches s x y n p ∧ s.fb.pixel p = false)

/-- CLS makes every pixel 0 and writes nothing else, VF and FB_REDRAW included (R109; FB_REDRAW is decision D22, log 18). -/
def Obligations.ClearZeroesEveryPixel : Prop :=
  ∀ s : State,
    IsWordOf 0x00E0 .cls
    ∧ ∃ t, exec .cls s = .next t ∧ (∀ p, t.fb.pixel p = false) ∧ t.pc = s.pc + 2#16 ∧ OnlyChanges [] [.fb] s t

/-! ## Keys -/

/-- SKP Vx and SKNP Vx look at the key `V[x]`, a value below 16, and skip; a value of 16 or more is fatal (R110, R111,
R112, R122). -/
def Obligations.KeySkips : Prop :=
  ∀ (x : RegIdx) (s : State),
    IsWordOf (0xE09E + x.val * 256) (.skp x)
    ∧ IsWordOf (0xE0A1 + x.val * 256) (.sknp x)
    ∧ (∀ k : Fin 16, (s.reg x).toNat = k.val →
      (∃ t, exec (.skp x) s = .next t ∧ OnlyChanges [] [] s t
        ∧ t.pc.toNat = (s.pc.toNat + if s.keys[k] = true then 4 else 2) % 65536)
      ∧ (∃ t, exec (.sknp x) s = .next t ∧ OnlyChanges [] [] s t
        ∧ t.pc.toNat = (s.pc.toNat + if s.keys[k] = true then 2 else 4) % 65536))
    ∧ (16 ≤ (s.reg x).toNat →
      (∃ u, exec (.skp x) s = .fault (.fatal (.keyIndexOutOfRange (s.reg x)) u))
      ∧ (∃ u, exec (.sknp x) s = .fault (.fatal (.keyIndexOutOfRange (s.reg x)) u)))

/-- LD Vx, K takes the least held key and advances; with no key held it completes and changes nothing (R113). -/
def Obligations.WaitForKeyTakesTheLeast : Prop :=
  ∀ (x : RegIdx) (s : State),
    IsWordOf (0xF00A + x.val * 256) (.ldVxK x)
    ∧ (∀ k : Fin 16, s.keys[k] = true → (∀ j : Fin 16, j < k → s.keys[j] = false) →
      ∃ t, exec (.ldVxK x) s = .next t ∧ (t.reg x).toNat = k.val ∧ t.pc = s.pc + 2#16 ∧ OnlyChanges [x] [] s t)
    ∧ ((∀ k : Fin 16, s.keys[k] = false) → exec (.ldVxK x) s = .next s)

/-- Waiting for a key is an infinite run of completed steps that changes only the timers and the sound event (R114). -/
def Obligations.KeyWaitRunsForever : Prop :=
  ∀ (s : State) (w : Word) (x : RegIdx), s.fault = none → s.Fetches w → decodeWord w = .instr (.ldVxK x) →
    (∀ k : Fin 16, s.keys[k] = false) →
    ∀ k : Nat, ∃ t, core.run k s = .next t ∧ t.pc = s.pc ∧ OnlyChanges [] [.delay, .sound, .soundEvent] s t
      ∧ t.delay.toNat = s.delay.toNat - k ∧ t.sound.toNat = s.sound.toNat - k

/-! ## The driver -/

/-- A restart, at any time, is a reset and a new launch: it clears FAULT and puts every part of the CORE at its reset value
(R119, R137, R139, D20); the parameters, the key states and the count of random draws stay (log 22). -/
def Obligations.RestartIsResetAndLaunch : Prop :=
  ∀ (l : LaunchData) (d : Session), l.font.length = 80 → l.image.length ≤ 3584 →
    ∃ e t, (HostAction.restart l).apply d = some e ∧ launch d.core.params l = some t ∧ e.core.mem = t.mem
      ∧ e.core.pc = 0x200#16 ∧ OnlyChanges [] [.mem, .keys, .draws, .params] State.reset e.core
      ∧ OnlyChanges (List.finRange 16)
          [.index, .stack, .sp, .delay, .sound, .fault, .mem, .fb, .redraw, .soundEvent] d.core e.core

/-- The driver's skip is allowed after the outcome `Unsupported(w)` only; it moves pc past the word, changes nothing else and
is not allowed twice (R137; decision D19, log 22). After a requested step it is allowed exactly when that step reported an
unsupported word. -/
def Obligations.DriverSkipPassesTheWord : Prop :=
  ∀ d : Session,
    (∀ w, d.last = some (.unsupported w) →
      ∃ e, HostAction.skipUnsupported.apply d = some e ∧ e.core.pc.toNat = (d.core.pc.toNat + 2) % 65536
        ∧ OnlyChanges [] [] d.core e.core ∧ HostAction.skipUnsupported.apply e = none)
    ∧ ((∀ w, d.last ≠ some (.unsupported w)) → HostAction.skipUnsupported.apply d = none)
    ∧ (∀ e, HostAction.requestStep.apply d = some e →
      ((∃ f, HostAction.skipUnsupported.apply e = some f) ↔ ∃ w, step d.core = .refused (.unsupported w)))

/-- In every run of the driver's actions, a skip that is allowed has its report: a requested step that was unsupported, with
only writes of KeyState and clearings of FB_REDRAW since; and the skip leaves pc two past the reported word (R137, R117;
decision D19, log 22). -/
def Obligations.EverySkipHasItsReport : Prop :=
  ∀ (as : List HostAction) (s : State) (e f : Session),
    runActions as (Session.start s) = some e → HostAction.skipUnsupported.apply e = some f →
    ∃ (before after : List HostAction) (d : Session) (w : Word),
      as = before ++ HostAction.requestStep :: after ∧ runActions before (Session.start s) = some d
        ∧ step d.core = .refused (.unsupported w) ∧ f.core.pc = d.core.pc + 2#16
        ∧ ∀ a ∈ after, (∃ keys, a = .writeKeys keys) ∨ a = .clearRedraw
end

