-- ==== Sys2Proof/Laws/Decode.lean ====
section
/-! SUPPORT. The fields of a word and the words of the formats as numbers (R52, R53), and the fields of an encoded word. -/

namespace Sys2Proof

variable (op : BitVec 4) (x y : RegIdx) (n : BitVec 4) (nn : Byte) (nnn : Addr12) (w : Word)

/-! ### The fields of a word -/

theorem opField_toNat : (opField w).toNat = w.toNat / 4096 := by
  simp only [opField, BitVec.extractLsb'_toNat, Nat.shiftRight_eq_div_pow]; omega

theorem nField_toNat : (nField w).toNat = w.toNat % 16 := by
  simp [nField]

theorem nnField_toNat : (nnField w).toNat = w.toNat % 256 := by
  simp [nnField]

theorem nnnField_toNat : (nnnField w).toNat = w.toNat % 4096 := by
  simp [nnnField]

theorem xField_val : (xField w).val = w.toNat / 256 % 16 := by
  simp [xField, Nat.shiftRight_eq_div_pow]

theorem yField_val : (yField w).val = w.toNat / 16 % 16 := by
  simp [yField, Nat.shiftRight_eq_div_pow]

/-! ### The words of the formats -/

/-- Concatenation as a number: `concat(a, b)` of R13 at any widths. -/
theorem append_toNat {k l : Nat} (a : BitVec k) (b : BitVec l) : (a ++ b).toNat = a.toNat * 2 ^ l + b.toNat := by
  rw [BitVec.toNat_append, Nat.shiftLeft_eq, Nat.mul_comm, ← Nat.two_pow_add_eq_or_of_lt b.isLt]

theorem bits4_toNat (k : Fin 16) : (bits4 k).toNat = k.val := rfl

theorem wordOfBytes_toNat (hi lo : Byte) : (wordOfBytes hi lo).toNat = hi.toNat * 256 + lo.toNat := append_toNat hi lo

theorem encodeA_toNat : (encodeA op nnn).toNat = op.toNat * 4096 + nnn.toNat := append_toNat op nnn

theorem encodeXNN_toNat : (encodeXNN op x nn).toNat = op.toNat * 4096 + x.val * 256 + nn.toNat := by
  simp only [encodeXNN, append_toNat, bits4_toNat]; omega

theorem encodeXYN_toNat :
    (encodeXYN op x y n).toNat = op.toNat * 4096 + x.val * 256 + y.val * 16 + n.toNat := by
  simp only [encodeXYN, append_toNat, bits4_toNat]; omega

theorem encodeX_toNat : (encodeX op x nn).toNat = op.toNat * 4096 + x.val * 256 + nn.toNat := by
  simp only [encodeX, append_toNat, bits4_toNat]; omega

/-! ### A number written as a pattern is the word of the format -/

theorem ofNat_encodeA : BitVec.ofNat 16 (op.toNat * 4096 + nnn.toNat) = encodeA op nnn := by
  rw [← encodeA_toNat, BitVec.ofNat_toNat, BitVec.setWidth_eq]

theorem ofNat_encodeXNN : BitVec.ofNat 16 (op.toNat * 4096 + x.val * 256 + nn.toNat) = encodeXNN op x nn := by
  rw [← encodeXNN_toNat, BitVec.ofNat_toNat, BitVec.setWidth_eq]

theorem ofNat_encodeXYN :
    BitVec.ofNat 16 (op.toNat * 4096 + x.val * 256 + y.val * 16 + n.toNat) = encodeXYN op x y n := by
  rw [← encodeXYN_toNat, BitVec.ofNat_toNat, BitVec.setWidth_eq]

/-! ### The fields of an encoded word -/

@[simp] theorem opField_encodeA : opField (encodeA op nnn) = op :=
  BitVec.eq_of_toNat_eq (by rw [opField_toNat, encodeA_toNat]; have := nnn.isLt; omega)

@[simp] theorem nnnField_encodeA : nnnField (encodeA op nnn) = nnn :=
  BitVec.eq_of_toNat_eq (by rw [nnnField_toNat, encodeA_toNat]; have := nnn.isLt; omega)

@[simp] theorem opField_encodeXNN : opField (encodeXNN op x nn) = op :=
  BitVec.eq_of_toNat_eq (by rw [opField_toNat, encodeXNN_toNat]; have := nn.isLt; have := x.isLt; omega)

@[simp] theorem xField_encodeXNN : xField (encodeXNN op x nn) = x :=
  Fin.ext (by rw [xField_val, encodeXNN_toNat]; have := nn.isLt; have := x.isLt; omega)

@[simp] theorem nnField_encodeXNN : nnField (encodeXNN op x nn) = nn :=
  BitVec.eq_of_toNat_eq (by rw [nnField_toNat, encodeXNN_toNat]; have := nn.isLt; omega)

@[simp] theorem opField_encodeXYN : opField (encodeXYN op x y n) = op :=
  BitVec.eq_of_toNat_eq (by
    rw [opField_toNat, encodeXYN_toNat]; have := n.isLt; have := x.isLt; have := y.isLt; omega)

@[simp] theorem xField_encodeXYN : xField (encodeXYN op x y n) = x :=
  Fin.ext (by rw [xField_val, encodeXYN_toNat]; have := n.isLt; have := x.isLt; have := y.isLt; omega)

@[simp] theorem yField_encodeXYN : yField (encodeXYN op x y n) = y :=
  Fin.ext (by rw [yField_val, encodeXYN_toNat]; have := n.isLt; have := x.isLt; have := y.isLt; omega)

@[simp] theorem nField_encodeXYN : nField (encodeXYN op x y n) = n :=
  BitVec.eq_of_toNat_eq (by rw [nField_toNat, encodeXYN_toNat]; have := n.isLt; omega)

@[simp] theorem opField_encodeX : opField (encodeX op x nn) = op := opField_encodeXNN op x nn

@[simp] theorem xField_encodeX : xField (encodeX op x nn) = x := xField_encodeXNN op x nn

@[simp] theorem nnField_encodeX : nnField (encodeX op x nn) = nn := nnField_encodeXNN op x nn

/-! ### A word is its fields -/

theorem encodeA_fields : encodeA (opField w) (nnnField w) = w :=
  BitVec.eq_of_toNat_eq (by rw [encodeA_toNat, opField_toNat, nnnField_toNat]; omega)

theorem encodeXNN_fields : encodeXNN (opField w) (xField w) (nnField w) = w :=
  BitVec.eq_of_toNat_eq (by
    rw [encodeXNN_toNat, opField_toNat, nnField_toNat, xField_val]; omega)

theorem encodeXYN_fields : encodeXYN (opField w) (xField w) (yField w) (nField w) = w :=
  BitVec.eq_of_toNat_eq (by
    rw [encodeXYN_toNat, opField_toNat, nField_toNat, xField_val, yField_val]; omega)

/-! ### The masks of the opcode table (R55) -/

theorem mask_F000 : w &&& 0xF000#16 = encodeA (opField w) 0#12 := by
  refine BitVec.eq_of_getLsbD_eq fun i hi => ?_
  rw [BitVec.getLsbD_and, encodeA]
  simp only [BitVec.getLsbD_append, opField]
  interval_cases i <;> simp

theorem mask_F00F : w &&& 0xF00F#16 = encodeXYN (opField w) 0 0 (nField w) := by
  refine BitVec.eq_of_getLsbD_eq fun i hi => ?_
  rw [BitVec.getLsbD_and, encodeXYN]
  simp only [BitVec.getLsbD_append, opField, nField, bits4]
  interval_cases i <;> simp

theorem mask_F0FF : w &&& 0xF0FF#16 = encodeXNN (opField w) 0 (nnField w) := by
  refine BitVec.eq_of_getLsbD_eq fun i hi => ?_
  rw [BitVec.getLsbD_and, encodeXNN]
  simp only [BitVec.getLsbD_append, opField, nnField, bits4]
  interval_cases i <;> simp

theorem mask_FFFF : w &&& 0xFFFF#16 = w := BitVec.and_allOnes (x := w)

/-- Two bytes of a word, joined again, are the word (R39, R60). -/
theorem wordOfBytes_bytesOfWord : wordOfBytes (w.extractLsb' 8 8) (w.extractLsb' 0 8) = w :=
  BitVec.eq_of_toNat_eq (by
    rw [wordOfBytes_toNat]
    simp only [BitVec.extractLsb'_toNat, Nat.shiftRight_eq_div_pow]
    have := w.isLt
    omega)

end Sys2Proof
end

