-- ==== Sys2Proof/Laws/Memory.lean ====
section
/-! SUPPORT. The laws of memory: every write keeps the canonical form, and what a read gives after a write. -/

namespace Sys2Proof.Machine

/-- A cell of a cell list is the one written, and it is not the unlisted byte. -/
theorem mem_cell {a : Nat} {v : Byte} {c : Host.Cell} (h : c ∈ Memory.cell a v) :
    c = (a, v) ∧ v ≠ Memory.unlisted := by
  unfold Memory.cell at h
  split at h
  · simp at h
  · exact ⟨by simpa using h, ‹_›⟩

/-- Every cell after a write is an old one or the written one. -/
theorem mem_write {m : Memory} {a : Nat} {v : Byte} {c : Host.Cell} (h : c ∈ Memory.write m a v) :
    (c = (a, v) ∧ v ≠ Memory.unlisted) ∨ c ∈ m := by
  induction m with
  | nil => exact .inl (mem_cell h)
  | cons d m ih =>
    simp only [Memory.write] at h
    split at h
    · rcases List.mem_append.1 h with h | h
      · exact .inl (mem_cell h)
      · exact .inr h
    · split at h
      · rcases List.mem_append.1 h with h | h
        · exact .inl (mem_cell h)
        · exact .inr (List.mem_cons_of_mem _ h)
      · rcases List.mem_cons.1 h with h | h
        · exact .inr (h ▸ List.mem_cons_self)
        · exact (ih h).imp_right (List.mem_cons_of_mem _)

/-- A write keeps the addresses strictly rising. -/
theorem write_sorted {m : Memory} (a : Nat) (v : Byte) (h : m.Pairwise (fun c d => c.1 < d.1)) :
    (Memory.write m a v).Pairwise (fun c d => c.1 < d.1) := by
  have hcell : (Memory.cell a v).Pairwise (fun c d : Host.Cell => c.1 < d.1) := by
    unfold Memory.cell; split <;> simp
  induction m with
  | nil => exact hcell
  | cons d m ih =>
    obtain ⟨hd, hm⟩ := List.pairwise_cons.1 h
    simp only [Memory.write]
    split
    · refine List.pairwise_append.2 ⟨hcell, h, fun c hc e he => ?_⟩
      obtain ⟨rfl, -⟩ := mem_cell hc
      rcases List.mem_cons.1 he with rfl | he
      · assumption
      · exact Nat.lt_trans ‹_› (hd e he)
    · split
      · refine List.pairwise_append.2 ⟨hcell, hm, fun c hc e he => ?_⟩
        obtain ⟨rfl, -⟩ := mem_cell hc
        have := hd e he
        simp_all
      · refine List.pairwise_cons.2 ⟨fun c hc => ?_, ih hm⟩
        rcases mem_write hc with ⟨rfl, -⟩ | hc
        · simp only; omega
        · exact hd c hc

/-- A write below 4096 keeps the canonical form. -/
theorem write_wf {m : Memory} {a : Nat} (v : Byte) (h : m.wf) (ha : a < 4096) : (m.write a v).wf := by
  refine ⟨write_sorted a v h.1, fun c hc => ?_⟩
  rcases mem_write hc with ⟨rfl, hv⟩ | hc
  · exact ⟨hv, ha⟩
  · exact h.2 c hc

/-- Storing a run that ends inside memory keeps the canonical form. -/
theorem writeRun_wf {m : Memory} {a : Nat} {bs : List Byte} (h : m.wf) (ha : a + bs.length ≤ 4096) :
    (m.writeRun a bs).wf := by
  induction bs generalizing m a with
  | nil => exact h
  | cons b bs ih =>
    simp only [List.length_cons] at ha
    exact ih (write_wf b h (by omega)) (by omega)

/-- Below every listed address, memory reads as unlisted. -/
theorem read_below {m : Memory} {a : Nat} (h : ∀ c ∈ m, a < c.1) : m.read a = Memory.unlisted := by
  induction m with
  | nil => rfl
  | cons c m ih =>
    have hc := h c List.mem_cons_self
    rw [Memory.read, if_neg (Nat.ne_of_lt hc)]
    exact ih fun d hd => h d (List.mem_cons_of_mem _ hd)

/-- A read of a cell in front of a memory whose addresses lie above it. -/
theorem read_cell_append {m : Memory} {a : Nat} (v : Byte) (b : Nat) (h : ∀ c ∈ m, a < c.1) :
    Memory.read (Memory.cell a v ++ m) b = if b = a then v else m.read b := by
  unfold Memory.cell
  split
  · subst_vars
    by_cases hb : b = a
    · subst hb; simpa using read_below h
    · simp [hb]
  · rfl

/-- Reading after a write: the written byte at its address, the old byte elsewhere (R43). -/
theorem read_write {m : Memory} (a : Nat) (v : Byte) (b : Nat) (h : m.Pairwise (fun c d => c.1 < d.1)) :
    (m.write a v).read b = if b = a then v else m.read b := by
  induction m with
  | nil => simpa [Memory.write] using read_cell_append (m := []) v b (by simp)
  | cons d m ih =>
    obtain ⟨hd, hm⟩ := List.pairwise_cons.1 h
    simp only [Memory.write]
    split
    · refine read_cell_append v b fun c hc => ?_
      rcases List.mem_cons.1 hc with rfl | hc
      · assumption
      · exact Nat.lt_trans ‹_› (hd c hc)
    · split
      · rename_i _ hda
        rw [read_cell_append v b (fun c hc => hda ▸ hd c hc)]
        by_cases hb : b = a <;> simp [hb, Memory.read, ← hda]
      · rw [Memory.read, Memory.read, ih hm]
        by_cases hbd : b = d.1
        · rw [if_pos hbd, if_pos hbd, if_neg (fun e => by omega)]
        · rw [if_neg hbd, if_neg hbd]

/-- Reading after a stored run: its bytes inside it, the old bytes outside it (R41, R43). -/
theorem read_writeRun {m : Memory} (a : Nat) (bs : List Byte) (b : Nat) (h : m.Pairwise (fun c d => c.1 < d.1)) :
    (m.writeRun a bs).read b = if a ≤ b ∧ b < a + bs.length then bs.getD (b - a) 0#8 else m.read b := by
  induction bs generalizing m a with
  | nil => rw [if_neg (by simp)]; rfl
  | cons v bs ih =>
    rw [Memory.writeRun, ih _ (write_sorted a v h), read_write a v b h, List.length_cons]
    by_cases hb : b = a
    · subst hb; simp
    · by_cases hin : a + 1 ≤ b ∧ b < a + 1 + bs.length
      · rw [if_pos hin, if_pos (by omega), show b - a = (b - (a + 1)) + 1 by omega, List.getD_cons_succ]
      · rw [if_neg hin, if_neg hb, if_neg (by omega)]

end Sys2Proof.Machine
end

