-- ==== Sys2Proof/Laws/State.lean ====
section
/-! SUPPORT. What each named update of the state leaves in each field, so that no proof unfolds a record update. -/

namespace Sys2Proof.Machine

variable (s : State)

/-! ### setReg -/

@[simp] theorem setReg_regs (x : RegIdx) (v : Byte) : (s.setReg x v).regs = s.regs.set x v := rfl
@[simp] theorem setReg_index (x : RegIdx) (v : Byte) : (s.setReg x v).index = s.index := rfl
@[simp] theorem setReg_pc (x : RegIdx) (v : Byte) : (s.setReg x v).pc = s.pc := rfl
@[simp] theorem setReg_stack (x : RegIdx) (v : Byte) : (s.setReg x v).stack = s.stack := rfl
@[simp] theorem setReg_sp (x : RegIdx) (v : Byte) : (s.setReg x v).sp = s.sp := rfl
@[simp] theorem setReg_delay (x : RegIdx) (v : Byte) : (s.setReg x v).delay = s.delay := rfl
@[simp] theorem setReg_sound (x : RegIdx) (v : Byte) : (s.setReg x v).sound = s.sound := rfl
@[simp] theorem setReg_fault (x : RegIdx) (v : Byte) : (s.setReg x v).fault = s.fault := rfl
@[simp] theorem setReg_mem (x : RegIdx) (v : Byte) : (s.setReg x v).mem = s.mem := rfl
@[simp] theorem setReg_fb (x : RegIdx) (v : Byte) : (s.setReg x v).fb = s.fb := rfl
@[simp] theorem setReg_redraw (x : RegIdx) (v : Byte) : (s.setReg x v).redraw = s.redraw := rfl
@[simp] theorem setReg_keys (x : RegIdx) (v : Byte) : (s.setReg x v).keys = s.keys := rfl
@[simp] theorem setReg_soundEvent (x : RegIdx) (v : Byte) : (s.setReg x v).soundEvent = s.soundEvent := rfl
@[simp] theorem setReg_draws (x : RegIdx) (v : Byte) : (s.setReg x v).draws = s.draws := rfl
@[simp] theorem setReg_params (x : RegIdx) (v : Byte) : (s.setReg x v).params = s.params := rfl

/-! ### setPc -/

@[simp] theorem setPc_regs (v : Word) : (s.setPc v).regs = s.regs := rfl
@[simp] theorem setPc_index (v : Word) : (s.setPc v).index = s.index := rfl
@[simp] theorem setPc_pc (v : Word) : (s.setPc v).pc = v := rfl
@[simp] theorem setPc_stack (v : Word) : (s.setPc v).stack = s.stack := rfl
@[simp] theorem setPc_sp (v : Word) : (s.setPc v).sp = s.sp := rfl
@[simp] theorem setPc_delay (v : Word) : (s.setPc v).delay = s.delay := rfl
@[simp] theorem setPc_sound (v : Word) : (s.setPc v).sound = s.sound := rfl
@[simp] theorem setPc_fault (v : Word) : (s.setPc v).fault = s.fault := rfl
@[simp] theorem setPc_mem (v : Word) : (s.setPc v).mem = s.mem := rfl
@[simp] theorem setPc_fb (v : Word) : (s.setPc v).fb = s.fb := rfl
@[simp] theorem setPc_redraw (v : Word) : (s.setPc v).redraw = s.redraw := rfl
@[simp] theorem setPc_keys (v : Word) : (s.setPc v).keys = s.keys := rfl
@[simp] theorem setPc_soundEvent (v : Word) : (s.setPc v).soundEvent = s.soundEvent := rfl
@[simp] theorem setPc_draws (v : Word) : (s.setPc v).draws = s.draws := rfl
@[simp] theorem setPc_params (v : Word) : (s.setPc v).params = s.params := rfl
@[simp] theorem setPc_reg (v : Word) (k : RegIdx) : (s.setPc v).reg k = s.reg k := rfl

/-! ### setIndex -/

@[simp] theorem setIndex_regs (v : Word) : (s.setIndex v).regs = s.regs := rfl
@[simp] theorem setIndex_index (v : Word) : (s.setIndex v).index = v := rfl
@[simp] theorem setIndex_pc (v : Word) : (s.setIndex v).pc = s.pc := rfl
@[simp] theorem setIndex_stack (v : Word) : (s.setIndex v).stack = s.stack := rfl
@[simp] theorem setIndex_sp (v : Word) : (s.setIndex v).sp = s.sp := rfl
@[simp] theorem setIndex_delay (v : Word) : (s.setIndex v).delay = s.delay := rfl
@[simp] theorem setIndex_sound (v : Word) : (s.setIndex v).sound = s.sound := rfl
@[simp] theorem setIndex_fault (v : Word) : (s.setIndex v).fault = s.fault := rfl
@[simp] theorem setIndex_mem (v : Word) : (s.setIndex v).mem = s.mem := rfl
@[simp] theorem setIndex_fb (v : Word) : (s.setIndex v).fb = s.fb := rfl
@[simp] theorem setIndex_redraw (v : Word) : (s.setIndex v).redraw = s.redraw := rfl
@[simp] theorem setIndex_keys (v : Word) : (s.setIndex v).keys = s.keys := rfl
@[simp] theorem setIndex_soundEvent (v : Word) : (s.setIndex v).soundEvent = s.soundEvent := rfl
@[simp] theorem setIndex_draws (v : Word) : (s.setIndex v).draws = s.draws := rfl
@[simp] theorem setIndex_params (v : Word) : (s.setIndex v).params = s.params := rfl
@[simp] theorem setIndex_reg (v : Word) (k : RegIdx) : (s.setIndex v).reg k = s.reg k := rfl

/-! ### setDelay -/

@[simp] theorem setDelay_regs (v : Byte) : (s.setDelay v).regs = s.regs := rfl
@[simp] theorem setDelay_index (v : Byte) : (s.setDelay v).index = s.index := rfl
@[simp] theorem setDelay_pc (v : Byte) : (s.setDelay v).pc = s.pc := rfl
@[simp] theorem setDelay_stack (v : Byte) : (s.setDelay v).stack = s.stack := rfl
@[simp] theorem setDelay_sp (v : Byte) : (s.setDelay v).sp = s.sp := rfl
@[simp] theorem setDelay_delay (v : Byte) : (s.setDelay v).delay = v := rfl
@[simp] theorem setDelay_sound (v : Byte) : (s.setDelay v).sound = s.sound := rfl
@[simp] theorem setDelay_fault (v : Byte) : (s.setDelay v).fault = s.fault := rfl
@[simp] theorem setDelay_mem (v : Byte) : (s.setDelay v).mem = s.mem := rfl
@[simp] theorem setDelay_fb (v : Byte) : (s.setDelay v).fb = s.fb := rfl
@[simp] theorem setDelay_redraw (v : Byte) : (s.setDelay v).redraw = s.redraw := rfl
@[simp] theorem setDelay_keys (v : Byte) : (s.setDelay v).keys = s.keys := rfl
@[simp] theorem setDelay_soundEvent (v : Byte) : (s.setDelay v).soundEvent = s.soundEvent := rfl
@[simp] theorem setDelay_draws (v : Byte) : (s.setDelay v).draws = s.draws := rfl
@[simp] theorem setDelay_params (v : Byte) : (s.setDelay v).params = s.params := rfl
@[simp] theorem setDelay_reg (v : Byte) (k : RegIdx) : (s.setDelay v).reg k = s.reg k := rfl

/-! ### setSound -/

@[simp] theorem setSound_regs (v : Byte) : (s.setSound v).regs = s.regs := rfl
@[simp] theorem setSound_index (v : Byte) : (s.setSound v).index = s.index := rfl
@[simp] theorem setSound_pc (v : Byte) : (s.setSound v).pc = s.pc := rfl
@[simp] theorem setSound_stack (v : Byte) : (s.setSound v).stack = s.stack := rfl
@[simp] theorem setSound_sp (v : Byte) : (s.setSound v).sp = s.sp := rfl
@[simp] theorem setSound_delay (v : Byte) : (s.setSound v).delay = s.delay := rfl
@[simp] theorem setSound_sound (v : Byte) : (s.setSound v).sound = v := rfl
@[simp] theorem setSound_fault (v : Byte) : (s.setSound v).fault = s.fault := rfl
@[simp] theorem setSound_mem (v : Byte) : (s.setSound v).mem = s.mem := rfl
@[simp] theorem setSound_fb (v : Byte) : (s.setSound v).fb = s.fb := rfl
@[simp] theorem setSound_redraw (v : Byte) : (s.setSound v).redraw = s.redraw := rfl
@[simp] theorem setSound_keys (v : Byte) : (s.setSound v).keys = s.keys := rfl
@[simp] theorem setSound_soundEvent (v : Byte) : (s.setSound v).soundEvent = s.soundEvent := rfl
@[simp] theorem setSound_draws (v : Byte) : (s.setSound v).draws = s.draws := rfl
@[simp] theorem setSound_params (v : Byte) : (s.setSound v).params = s.params := rfl
@[simp] theorem setSound_reg (v : Byte) (k : RegIdx) : (s.setSound v).reg k = s.reg k := rfl

/-! ### setMem -/

@[simp] theorem setMem_regs (m : Memory) : (s.setMem m).regs = s.regs := rfl
@[simp] theorem setMem_index (m : Memory) : (s.setMem m).index = s.index := rfl
@[simp] theorem setMem_pc (m : Memory) : (s.setMem m).pc = s.pc := rfl
@[simp] theorem setMem_stack (m : Memory) : (s.setMem m).stack = s.stack := rfl
@[simp] theorem setMem_sp (m : Memory) : (s.setMem m).sp = s.sp := rfl
@[simp] theorem setMem_delay (m : Memory) : (s.setMem m).delay = s.delay := rfl
@[simp] theorem setMem_sound (m : Memory) : (s.setMem m).sound = s.sound := rfl
@[simp] theorem setMem_fault (m : Memory) : (s.setMem m).fault = s.fault := rfl
@[simp] theorem setMem_mem (m : Memory) : (s.setMem m).mem = m := rfl
@[simp] theorem setMem_fb (m : Memory) : (s.setMem m).fb = s.fb := rfl
@[simp] theorem setMem_redraw (m : Memory) : (s.setMem m).redraw = s.redraw := rfl
@[simp] theorem setMem_keys (m : Memory) : (s.setMem m).keys = s.keys := rfl
@[simp] theorem setMem_soundEvent (m : Memory) : (s.setMem m).soundEvent = s.soundEvent := rfl
@[simp] theorem setMem_draws (m : Memory) : (s.setMem m).draws = s.draws := rfl
@[simp] theorem setMem_params (m : Memory) : (s.setMem m).params = s.params := rfl
@[simp] theorem setMem_reg (m : Memory) (k : RegIdx) : (s.setMem m).reg k = s.reg k := rfl

/-! ### setFb -/

@[simp] theorem setFb_regs (f : Framebuffer) : (s.setFb f).regs = s.regs := rfl
@[simp] theorem setFb_index (f : Framebuffer) : (s.setFb f).index = s.index := rfl
@[simp] theorem setFb_pc (f : Framebuffer) : (s.setFb f).pc = s.pc := rfl
@[simp] theorem setFb_stack (f : Framebuffer) : (s.setFb f).stack = s.stack := rfl
@[simp] theorem setFb_sp (f : Framebuffer) : (s.setFb f).sp = s.sp := rfl
@[simp] theorem setFb_delay (f : Framebuffer) : (s.setFb f).delay = s.delay := rfl
@[simp] theorem setFb_sound (f : Framebuffer) : (s.setFb f).sound = s.sound := rfl
@[simp] theorem setFb_fault (f : Framebuffer) : (s.setFb f).fault = s.fault := rfl
@[simp] theorem setFb_mem (f : Framebuffer) : (s.setFb f).mem = s.mem := rfl
@[simp] theorem setFb_fb (f : Framebuffer) : (s.setFb f).fb = f := rfl
@[simp] theorem setFb_redraw (f : Framebuffer) : (s.setFb f).redraw = s.redraw := rfl
@[simp] theorem setFb_keys (f : Framebuffer) : (s.setFb f).keys = s.keys := rfl
@[simp] theorem setFb_soundEvent (f : Framebuffer) : (s.setFb f).soundEvent = s.soundEvent := rfl
@[simp] theorem setFb_draws (f : Framebuffer) : (s.setFb f).draws = s.draws := rfl
@[simp] theorem setFb_params (f : Framebuffer) : (s.setFb f).params = s.params := rfl
@[simp] theorem setFb_reg (f : Framebuffer) (k : RegIdx) : (s.setFb f).reg k = s.reg k := rfl

/-! ### setRedraw -/

@[simp] theorem setRedraw_regs (b : Bool) : (s.setRedraw b).regs = s.regs := rfl
@[simp] theorem setRedraw_index (b : Bool) : (s.setRedraw b).index = s.index := rfl
@[simp] theorem setRedraw_pc (b : Bool) : (s.setRedraw b).pc = s.pc := rfl
@[simp] theorem setRedraw_stack (b : Bool) : (s.setRedraw b).stack = s.stack := rfl
@[simp] theorem setRedraw_sp (b : Bool) : (s.setRedraw b).sp = s.sp := rfl
@[simp] theorem setRedraw_delay (b : Bool) : (s.setRedraw b).delay = s.delay := rfl
@[simp] theorem setRedraw_sound (b : Bool) : (s.setRedraw b).sound = s.sound := rfl
@[simp] theorem setRedraw_fault (b : Bool) : (s.setRedraw b).fault = s.fault := rfl
@[simp] theorem setRedraw_mem (b : Bool) : (s.setRedraw b).mem = s.mem := rfl
@[simp] theorem setRedraw_fb (b : Bool) : (s.setRedraw b).fb = s.fb := rfl
@[simp] theorem setRedraw_redraw (b : Bool) : (s.setRedraw b).redraw = b := rfl
@[simp] theorem setRedraw_keys (b : Bool) : (s.setRedraw b).keys = s.keys := rfl
@[simp] theorem setRedraw_soundEvent (b : Bool) : (s.setRedraw b).soundEvent = s.soundEvent := rfl
@[simp] theorem setRedraw_draws (b : Bool) : (s.setRedraw b).draws = s.draws := rfl
@[simp] theorem setRedraw_params (b : Bool) : (s.setRedraw b).params = s.params := rfl
@[simp] theorem setRedraw_reg (b : Bool) (k : RegIdx) : (s.setRedraw b).reg k = s.reg k := rfl

/-! ### advance -/

@[simp] theorem advance_regs : (s.advance).regs = s.regs := rfl
@[simp] theorem advance_index : (s.advance).index = s.index := rfl
@[simp] theorem advance_pc : (s.advance).pc = s.pc + 2#16 := rfl
@[simp] theorem advance_stack : (s.advance).stack = s.stack := rfl
@[simp] theorem advance_sp : (s.advance).sp = s.sp := rfl
@[simp] theorem advance_delay : (s.advance).delay = s.delay := rfl
@[simp] theorem advance_sound : (s.advance).sound = s.sound := rfl
@[simp] theorem advance_fault : (s.advance).fault = s.fault := rfl
@[simp] theorem advance_mem : (s.advance).mem = s.mem := rfl
@[simp] theorem advance_fb : (s.advance).fb = s.fb := rfl
@[simp] theorem advance_redraw : (s.advance).redraw = s.redraw := rfl
@[simp] theorem advance_keys : (s.advance).keys = s.keys := rfl
@[simp] theorem advance_soundEvent : (s.advance).soundEvent = s.soundEvent := rfl
@[simp] theorem advance_draws : (s.advance).draws = s.draws := rfl
@[simp] theorem advance_params : (s.advance).params = s.params := rfl
@[simp] theorem advance_reg (k : RegIdx) : (s.advance).reg k = s.reg k := rfl

/-! ### skipIf -/

@[simp] theorem skipIf_regs (c : Bool) : (s.skipIf c).regs = s.regs := rfl
@[simp] theorem skipIf_index (c : Bool) : (s.skipIf c).index = s.index := rfl
@[simp] theorem skipIf_pc (c : Bool) : (s.skipIf c).pc = if c then s.pc + 4#16 else s.pc + 2#16 := rfl
@[simp] theorem skipIf_stack (c : Bool) : (s.skipIf c).stack = s.stack := rfl
@[simp] theorem skipIf_sp (c : Bool) : (s.skipIf c).sp = s.sp := rfl
@[simp] theorem skipIf_delay (c : Bool) : (s.skipIf c).delay = s.delay := rfl
@[simp] theorem skipIf_sound (c : Bool) : (s.skipIf c).sound = s.sound := rfl
@[simp] theorem skipIf_fault (c : Bool) : (s.skipIf c).fault = s.fault := rfl
@[simp] theorem skipIf_mem (c : Bool) : (s.skipIf c).mem = s.mem := rfl
@[simp] theorem skipIf_fb (c : Bool) : (s.skipIf c).fb = s.fb := rfl
@[simp] theorem skipIf_redraw (c : Bool) : (s.skipIf c).redraw = s.redraw := rfl
@[simp] theorem skipIf_keys (c : Bool) : (s.skipIf c).keys = s.keys := rfl
@[simp] theorem skipIf_soundEvent (c : Bool) : (s.skipIf c).soundEvent = s.soundEvent := rfl
@[simp] theorem skipIf_draws (c : Bool) : (s.skipIf c).draws = s.draws := rfl
@[simp] theorem skipIf_params (c : Bool) : (s.skipIf c).params = s.params := rfl
@[simp] theorem skipIf_reg (c : Bool) (k : RegIdx) : (s.skipIf c).reg k = s.reg k := rfl

/-! ### recordFault -/

@[simp] theorem recordFault_regs (r : FatalReason) : (s.recordFault r).regs = s.regs := rfl
@[simp] theorem recordFault_index (r : FatalReason) : (s.recordFault r).index = s.index := rfl
@[simp] theorem recordFault_pc (r : FatalReason) : (s.recordFault r).pc = s.pc := rfl
@[simp] theorem recordFault_stack (r : FatalReason) : (s.recordFault r).stack = s.stack := rfl
@[simp] theorem recordFault_sp (r : FatalReason) : (s.recordFault r).sp = s.sp := rfl
@[simp] theorem recordFault_delay (r : FatalReason) : (s.recordFault r).delay = s.delay := rfl
@[simp] theorem recordFault_sound (r : FatalReason) : (s.recordFault r).sound = s.sound := rfl
@[simp] theorem recordFault_fault (r : FatalReason) : (s.recordFault r).fault = some r := rfl
@[simp] theorem recordFault_mem (r : FatalReason) : (s.recordFault r).mem = s.mem := rfl
@[simp] theorem recordFault_fb (r : FatalReason) : (s.recordFault r).fb = s.fb := rfl
@[simp] theorem recordFault_redraw (r : FatalReason) : (s.recordFault r).redraw = s.redraw := rfl
@[simp] theorem recordFault_keys (r : FatalReason) : (s.recordFault r).keys = s.keys := rfl
@[simp] theorem recordFault_soundEvent (r : FatalReason) : (s.recordFault r).soundEvent = false := rfl
@[simp] theorem recordFault_draws (r : FatalReason) : (s.recordFault r).draws = s.draws := rfl
@[simp] theorem recordFault_params (r : FatalReason) : (s.recordFault r).params = s.params := rfl
@[simp] theorem recordFault_reg (r : FatalReason) (k : RegIdx) : (s.recordFault r).reg k = s.reg k := rfl

/-! ### countDraw -/

@[simp] theorem countDraw_regs : (s.countDraw).regs = s.regs := rfl
@[simp] theorem countDraw_index : (s.countDraw).index = s.index := rfl
@[simp] theorem countDraw_pc : (s.countDraw).pc = s.pc := rfl
@[simp] theorem countDraw_stack : (s.countDraw).stack = s.stack := rfl
@[simp] theorem countDraw_sp : (s.countDraw).sp = s.sp := rfl
@[simp] theorem countDraw_delay : (s.countDraw).delay = s.delay := rfl
@[simp] theorem countDraw_sound : (s.countDraw).sound = s.sound := rfl
@[simp] theorem countDraw_fault : (s.countDraw).fault = s.fault := rfl
@[simp] theorem countDraw_mem : (s.countDraw).mem = s.mem := rfl
@[simp] theorem countDraw_fb : (s.countDraw).fb = s.fb := rfl
@[simp] theorem countDraw_redraw : (s.countDraw).redraw = s.redraw := rfl
@[simp] theorem countDraw_keys : (s.countDraw).keys = s.keys := rfl
@[simp] theorem countDraw_soundEvent : (s.countDraw).soundEvent = s.soundEvent := rfl
@[simp] theorem countDraw_draws : (s.countDraw).draws = s.draws + 1 := rfl
@[simp] theorem countDraw_params : (s.countDraw).params = s.params := rfl
@[simp] theorem countDraw_reg (k : RegIdx) : (s.countDraw).reg k = s.reg k := rfl

/-! ### setRegFlag -/

@[simp] theorem setRegFlag_regs (x : RegIdx) (v : Byte) (b : Bool) : (s.setRegFlag x v b).regs = (s.regs.set x v).set flagReg (flagByte b) := rfl
@[simp] theorem setRegFlag_index (x : RegIdx) (v : Byte) (b : Bool) : (s.setRegFlag x v b).index = s.index := rfl
@[simp] theorem setRegFlag_pc (x : RegIdx) (v : Byte) (b : Bool) : (s.setRegFlag x v b).pc = s.pc := rfl
@[simp] theorem setRegFlag_stack (x : RegIdx) (v : Byte) (b : Bool) : (s.setRegFlag x v b).stack = s.stack := rfl
@[simp] theorem setRegFlag_sp (x : RegIdx) (v : Byte) (b : Bool) : (s.setRegFlag x v b).sp = s.sp := rfl
@[simp] theorem setRegFlag_delay (x : RegIdx) (v : Byte) (b : Bool) : (s.setRegFlag x v b).delay = s.delay := rfl
@[simp] theorem setRegFlag_sound (x : RegIdx) (v : Byte) (b : Bool) : (s.setRegFlag x v b).sound = s.sound := rfl
@[simp] theorem setRegFlag_fault (x : RegIdx) (v : Byte) (b : Bool) : (s.setRegFlag x v b).fault = s.fault := rfl
@[simp] theorem setRegFlag_mem (x : RegIdx) (v : Byte) (b : Bool) : (s.setRegFlag x v b).mem = s.mem := rfl
@[simp] theorem setRegFlag_fb (x : RegIdx) (v : Byte) (b : Bool) : (s.setRegFlag x v b).fb = s.fb := rfl
@[simp] theorem setRegFlag_redraw (x : RegIdx) (v : Byte) (b : Bool) : (s.setRegFlag x v b).redraw = s.redraw := rfl
@[simp] theorem setRegFlag_keys (x : RegIdx) (v : Byte) (b : Bool) : (s.setRegFlag x v b).keys = s.keys := rfl
@[simp] theorem setRegFlag_soundEvent (x : RegIdx) (v : Byte) (b : Bool) : (s.setRegFlag x v b).soundEvent = s.soundEvent := rfl
@[simp] theorem setRegFlag_draws (x : RegIdx) (v : Byte) (b : Bool) : (s.setRegFlag x v b).draws = s.draws := rfl
@[simp] theorem setRegFlag_params (x : RegIdx) (v : Byte) (b : Bool) : (s.setRegFlag x v b).params = s.params := rfl

/-! ### timerPhase -/

@[simp] theorem timerPhase_regs : (timerPhase s).regs = s.regs := rfl
@[simp] theorem timerPhase_index : (timerPhase s).index = s.index := rfl
@[simp] theorem timerPhase_pc : (timerPhase s).pc = s.pc := rfl
@[simp] theorem timerPhase_stack : (timerPhase s).stack = s.stack := rfl
@[simp] theorem timerPhase_sp : (timerPhase s).sp = s.sp := rfl
@[simp] theorem timerPhase_delay : (timerPhase s).delay = countDown s.delay := rfl
@[simp] theorem timerPhase_sound : (timerPhase s).sound = countDown s.sound := rfl
@[simp] theorem timerPhase_fault : (timerPhase s).fault = s.fault := rfl
@[simp] theorem timerPhase_mem : (timerPhase s).mem = s.mem := rfl
@[simp] theorem timerPhase_fb : (timerPhase s).fb = s.fb := rfl
@[simp] theorem timerPhase_redraw : (timerPhase s).redraw = s.redraw := rfl
@[simp] theorem timerPhase_keys : (timerPhase s).keys = s.keys := rfl
@[simp] theorem timerPhase_soundEvent : (timerPhase s).soundEvent = (s.sound == 1#8) := rfl
@[simp] theorem timerPhase_draws : (timerPhase s).draws = s.draws := rfl
@[simp] theorem timerPhase_params : (timerPhase s).params = s.params := rfl
@[simp] theorem timerPhase_reg (k : RegIdx) : (timerPhase s).reg k = s.reg k := rfl

/-! ### Registers -/

/-- Reading a register after a write. -/
@[simp] theorem setReg_reg (x : RegIdx) (v : Byte) (k : RegIdx) :
    (s.setReg x v).reg k = if k = x then v else s.reg k := by
  by_cases h : k = x
  · subst h; simp [State.reg, State.setReg]
  · have h' : x.val ≠ k.val := fun e => h (Fin.ext e.symm)
    simp [State.reg, State.setReg, h, Vector.getElem_set_ne _ _ h']

/-- Reading a register after a result and its flag: VF holds the flag whatever the destination (R16, R83). -/
@[simp] theorem setRegFlag_reg (x : RegIdx) (v : Byte) (b : Bool) (k : RegIdx) :
    (s.setRegFlag x v b).reg k = if k = 15 then flagByte b else if k = x then v else s.reg k := by
  simp [State.setRegFlag, flagReg]

/-- A register read of a state with replaced registers. -/
@[simp] theorem with_regs_reg (r : Vector Byte 16) (k : RegIdx) : State.reg { s with regs := r } k = r[k] := rfl

/-! ### Frames -/

/-- The frame holds of a state and itself. -/
theorem onlyChanges_refl (regs : List RegIdx) (parts : List Part) : OnlyChanges regs parts s s :=
  ⟨fun _ _ => rfl, fun p _ => by cases p <;> first | rfl | exact fun _ => rfl⟩

/-- The frame as its fourteen facts: the registers, then each part. -/
theorem onlyChanges_of {regs : List RegIdx} {parts : List Part} {s t : State}
    (hr : ∀ k, k ∉ regs → t.reg k = s.reg k)
    (h1 : Part.index ∉ parts → t.index = s.index) (h2 : Part.stack ∉ parts → t.stack = s.stack)
    (h3 : Part.sp ∉ parts → t.sp = s.sp) (h4 : Part.delay ∉ parts → t.delay = s.delay)
    (h5 : Part.sound ∉ parts → t.sound = s.sound) (h6 : Part.fault ∉ parts → t.fault = s.fault)
    (h7 : Part.mem ∉ parts → ∀ a, t.mem.read a = s.mem.read a)
    (h8 : Part.fb ∉ parts → ∀ p, t.fb.pixel p = s.fb.pixel p)
    (h9 : Part.redraw ∉ parts → t.redraw = s.redraw) (h10 : Part.keys ∉ parts → t.keys = s.keys)
    (h11 : Part.soundEvent ∉ parts → t.soundEvent = s.soundEvent) (h12 : Part.draws ∉ parts → t.draws = s.draws)
    (h13 : Part.params ∉ parts → t.params = s.params) : OnlyChanges regs parts s t :=
  ⟨hr, fun p hp => by cases p <;> simp only [Part.same] <;> exact (by assumption : _ → _) hp⟩

end Sys2Proof.Machine
end

