-- ==== Sys2Proof/Laws/Ops.lean ====
section
/-! SUPPORT. One lemma for each shared operation that says everything it can do; proofs cite these instead of unfolding the
operation. -/

namespace Sys2Proof.Machine

/-- The run exists when its last byte does, or when it is empty (R38). -/
theorem checkRange_eq_none {a k : Nat} : checkRange a k = none ↔ k = 0 ∨ a + k ≤ 4096 := by
  simp only [checkRange, Config.memSize, List.find?_eq_none, List.mem_map, List.mem_range, decide_eq_true_eq, not_le,
    forall_exists_index, and_imp, forall_apply_eq_imp_iff₂]
  constructor
  · intro h
    rcases k with _ | k
    · exact .inl rfl
    · have := h k (Nat.lt_succ_self k); omega
  · rintro h j hj; omega

/-- A run that passes the end reports its lowest address that does not exist, `max(a, 4096)` (R38). -/
theorem checkRange_eq_some {a k : Nat} (h : 4096 < a + k) (hk : 0 < k) : checkRange a k = some (max a 4096) := by
  have key : ∀ n j0, j0 + n = k → a + j0 ≤ max a 4096 →
      ((List.range' j0 n).map (fun j => a + j)).find? (fun b => decide (4096 ≤ b)) = some (max a 4096) := by
    intro n
    induction n with
    | zero => intro j0 hj hle; omega
    | succ n ih =>
      intro j0 hj hle
      rw [List.range'_succ, List.map_cons, List.find?_cons]
      by_cases hm : 4096 ≤ a + j0
      · simp only [hm, decide_true]
        congr 1; omega
      · simp only [hm, decide_false]
        exact ih (j0 + 1) (by omega) (by omega)
  have := key k 0 (by omega) (by omega)
  rwa [← List.range_eq_range'] at this

/-- A range-checked effect either completes, its run existing, or is the fatal outcome (R38, R121). -/
theorem withRange_cases (a k : Nat) (s act : State) :
    ((k = 0 ∨ a + k ≤ 4096) ∧ withRange a k s act = .next act)
      ∨ ((0 < k ∧ 4096 < a + k) ∧ withRange a k s act = raiseFatal (.memoryOutOfRange (max a 4096)) s) := by
  by_cases h : k = 0 ∨ a + k ≤ 4096
  · exact .inl ⟨h, by simp [withRange, checkRange_eq_none.2 h]⟩
  · have hk : 0 < k ∧ 4096 < a + k := by omega
    exact .inr ⟨hk, by simp [withRange, checkRange_eq_some hk.2 hk.1]⟩

/-- A range-checked effect whose run exists completes (R38). -/
theorem withRange_ok {a k : Nat} (s act : State) (h : k = 0 ∨ a + k ≤ 4096) : withRange a k s act = .next act := by
  simp [withRange, checkRange_eq_none.2 h]

/-- A range-checked effect whose run passes the end is fatal (R38, R121). -/
theorem withRange_fatal {a k : Nat} (s act : State) (hk : 0 < k) (h : 4096 < a + k) :
    withRange a k s act = raiseFatal (.memoryOutOfRange (max a 4096)) s := by
  simp [withRange, checkRange_eq_some h hk]

/-- The fetch reads the word the next fetch reads, or its bytes do not both exist (R40, R64). -/
theorem fetch_cases (s : State) :
    (∃ w, s.Fetches w ∧ fetch s = .word w)
      ∨ (4096 ≤ s.pc.toNat + 1 ∧ fetch s = .outOfRange (max s.pc.toNat 4096)) := by
  by_cases h : s.pc.toNat + 2 ≤ 4096
  · refine .inl ⟨_, ⟨by omega, rfl⟩, ?_⟩
    simp [fetch, checkRange_eq_none.2 (.inr h), wordOfBytes]
  · refine .inr ⟨by omega, ?_⟩
    simp [fetch, checkRange_eq_some (show 4096 < s.pc.toNat + 2 by omega)]

/-- The word the next fetch reads is the one it gives. -/
theorem fetch_of_fetches {s : State} {w : Word} (h : s.Fetches w) : fetch s = .word w := by
  obtain ⟨w', ⟨h1, h2⟩, h3⟩ | ⟨h1, -⟩ := fetch_cases s
  · rw [h3, ← h2, h.2]
  · exact absurd h.1 (by omega)

/-- What is fetched is what the next fetch reads. -/
theorem fetches_of_fetch {s : State} {w : Word} (h : fetch s = .word w) : s.Fetches w := by
  obtain ⟨w', h1, h3⟩ | ⟨-, h3⟩ := fetch_cases s
  · rw [h3] at h; cases h; exact h1
  · rw [h3] at h; cases h

/-- A push onto a stack that is not full (R26, R75). -/
theorem push?_of_lt {s : State} (v : Word) (k : Fin 16) (h : s.sp.val = k.val) :
    s.push? v = some { s with stack := s.stack.set k v, sp := ⟨k.val + 1, Nat.succ_lt_succ k.isLt⟩ } := by
  have hlt : s.sp.val < 16 := h ▸ k.isLt
  rw [State.push?, dif_pos hlt]
  simp only [h]

/-- A push onto a full stack does nothing (R120). -/
theorem push?_full {s : State} (v : Word) (h : s.sp.val = 16) : s.push? v = none := by
  simp [State.push?, h]

/-- A pop of a stack that is not empty (R26, R76). -/
theorem pop?_of_pos {s : State} (k : Fin 16) (h : s.sp.val = k.val + 1) :
    s.pop? = some (s.stack[k], { s with sp := ⟨k.val, Nat.lt_succ_of_lt k.isLt⟩ }) := by
  have hne : s.sp.val ≠ 0 := by omega
  rw [State.pop?, dif_neg hne]
  simp only [h, Nat.add_sub_cancel, Fin.getElem_fin]

/-- A pop of an empty stack does nothing (R120). -/
theorem pop?_empty {s : State} (h : s.sp.val = 0) : s.pop? = none := by
  simp [State.pop?, h]

/-- A stack pointer is at 16, or it is the index of a free entry. -/
theorem sp_full_or_free (s : State) : s.sp.val = 16 ∨ ∃ k : Fin 16, s.sp.val = k.val := by
  by_cases h : s.sp.val = 16
  · exact .inl h
  · exact .inr ⟨⟨s.sp.val, by omega⟩, rfl⟩

/-- A stack pointer is at 0, or it is one above the index of an entry in use. -/
theorem sp_empty_or_used (s : State) : s.sp.val = 0 ∨ ∃ k : Fin 16, s.sp.val = k.val + 1 := by
  by_cases h : s.sp.val = 0
  · exact .inl h
  · exact .inr ⟨⟨s.sp.val - 1, by omega⟩, by simp only; omega⟩

/-- A countdown is a subtraction that stops at 0 (R67). -/
theorem countDown_toNat (t : Byte) : (countDown t).toNat = t.toNat - 1 := by
  unfold countDown
  split
  · subst_vars; rfl
  · rename_i h
    have : t.toNat ≠ 0 := fun e => h (BitVec.eq_of_toNat_eq (by simpa using e))
    rw [BitVec.toNat_sub]; have := t.isLt; simp only [BitVec.toNat_ofNat]; omega

/-- A key operand below 16 names its key (R110). -/
theorem keyOperand_of_lt {v : Byte} (k : Fin 16) (h : v.toNat = k.val) : keyOperand v = some k := by
  have hlt : v.toNat < 16 := h ▸ k.isLt
  rw [keyOperand, dif_pos hlt]
  exact congrArg some (Fin.ext h)

/-- A key operand of 16 or more names no key (R110). -/
theorem keyOperand_of_ge {v : Byte} (h : 16 ≤ v.toNat) : keyOperand v = none := by
  simp [keyOperand, Nat.not_lt.2 h]

/-- The least held key, or no key held (R113). -/
theorem leastKeyHeld_cases (s : State) :
    (∃ k : Fin 16, leastKeyHeld s = some k ∧ s.keys[k] = true ∧ ∀ j : Fin 16, j < k → s.keys[j] = false)
      ∨ (leastKeyHeld s = none ∧ ∀ k : Fin 16, s.keys[k] = false) := by
  cases hk : leastKeyHeld s with
  | none =>
    refine .inr ⟨rfl, fun k => ?_⟩
    have := List.find?_eq_none.1 hk k (List.mem_finRange k)
    simpa using this
  | some k =>
    obtain ⟨h1, as, bs, h2, h3⟩ := List.find?_eq_some_iff_append.1 hk
    refine .inl ⟨k, rfl, by simpa using h1, fun j hj => ?_⟩
    have hsorted : (List.finRange 16).Pairwise (· < ·) := List.pairwise_lt_finRange 16
    rw [h2] at hsorted
    have hmem : j ∈ as ++ k :: bs := h2 ▸ List.mem_finRange j
    rcases List.mem_append.1 hmem with h | h
    · simpa using h3 j h
    · rcases List.mem_cons.1 h with rfl | h
      · exact absurd hj (lt_irrefl _)
      · have := (List.pairwise_cons.1 (List.pairwise_append.1 hsorted).2.1).1 j h
        exact absurd hj (lt_asymm this)

/-- The registers that LD Vx, [I] leaves (R102). -/
theorem loadRegs_get (s : State) (a : Nat) (x k : RegIdx) :
    (loadRegs s a x)[k] = if k ≤ x then s.mem.read (a + k.val) else s.reg k := by
  simp [loadRegs]

/-- The run that LD [I], Vx stores has `x + 1` bytes (R101). -/
theorem regsUpTo_length (s : State) (x : RegIdx) : (regsUpTo s x).length = x.val + 1 := by
  simp [regsUpTo]

/-- Its bytes are the registers in order (R101). -/
theorem regsUpTo_getD (s : State) (x k : RegIdx) (h : k ≤ x) : (regsUpTo s x).getD k.val 0#8 = s.reg k := by
  have hk : k.val < x.val + 1 := by have : k.val ≤ x.val := h; omega
  rw [List.getD_eq_getElem _ _ (by rw [regsUpTo_length]; exact hk)]
  simp [regsUpTo, State.reg]

end Sys2Proof.Machine
end

