-- ==== Sys2Proof/Laws/Step.lean ====
section
/-! SUPPORT. What a step can do, said once. -/

namespace Sys2Proof.Machine

/-- A step either finds the CORE faulted, or fails its fetch, or fetches a word that is no instruction, or runs the decoded
instruction (R61, R124). -/
theorem step_cases (s : State) :
    (∃ reason, s.fault = some reason ∧ step s = .fault (.noStep reason))
      ∨ (s.fault = none ∧ 4096 ≤ s.pc.toNat + 1
          ∧ step s = raiseFatal (.memoryOutOfRange (max s.pc.toNat 4096)) s)
      ∨ (∃ w u, s.fault = none ∧ s.Fetches w ∧ decodeWord w = .unknown u ∧ step s = .refused (.unsupported u))
      ∨ (∃ w i, s.fault = none ∧ s.Fetches w ∧ decodeWord w = .instr i ∧ step s = endStep (exec i s)) := by
  cases hf : s.fault with
  | some reason => exact .inl ⟨reason, rfl, by simp [step, hf]⟩
  | none =>
    right
    obtain ⟨w, hw, hfetch⟩ | ⟨hpc, hfetch⟩ := fetch_cases s
    · right
      cases hd : decodeWord w with
      | unknown u => exact .inl ⟨w, u, rfl, hw, hd, by simp [step, hf, hfetch, hd]⟩
      | instr i => exact .inr ⟨w, i, rfl, hw, hd, by simp [step, hf, hfetch, hd]⟩
    · exact .inl ⟨rfl, hpc, by simp [step, hf, hfetch]⟩

/-- A step that runs an instruction is the execute part and the timer phase (R61). -/
theorem step_of_instr {s : State} {w : Word} {i : Instr} (hf : s.fault = none) (hw : s.Fetches w)
    (hd : decodeWord w = .instr i) : step s = endStep (exec i s) := by
  simp [step, hf, fetch_of_fetches hw, hd]

/-- A step that fetches no instruction is refused with the word (R117). -/
theorem step_of_unknown {s : State} {w u : Word} (hf : s.fault = none) (hw : s.Fetches w)
    (hd : decodeWord w = .unknown u) : step s = .refused (.unsupported u) := by
  simp [step, hf, fetch_of_fetches hw, hd]

/-- The execute part never refuses: every arm has its meaning, and no meaning refuses. -/
theorem exec_ne_refused (i : Instr) (s : State) (r : Refusal) : exec i s ≠ .refused r := by
  have range_ne : ∀ a k act, withRange a k s act ≠ .refused r := by
    intro a k act h
    obtain ⟨-, e⟩ | ⟨-, e⟩ := withRange_cases a k s act <;> rw [e] at h <;> cases h
  intro h
  cases i with
  | drw => exact range_ne _ _ _ h
  | ldB => exact range_ne _ _ _ h
  | ldMemVx => exact range_ne _ _ _ h
  | ldVxMem => exact range_ne _ _ _ h
  | ret => simp only [exec, execRet] at h; split at h <;> cases h
  | call => simp only [exec, execCall] at h; split at h <;> cases h
  | skp => simp only [exec, execSkp] at h; split at h <;> cases h
  | sknp => simp only [exec, execSknp] at h; split at h <;> cases h
  | ldVxK => simp only [exec, execLdVxK] at h; split at h <;> cases h
  | addI => simp only [exec, execAddI] at h; split at h <;> cases h
  | _ => cases h

/-- A fatal execute part leaves the state before it with FAULT recorded, and nothing else (R63, R118). -/
theorem exec_fault {i : Instr} {s : State} {f : Fault} (h : exec i s = .fault f) :
    ∃ reason, f = .fatal reason (s.recordFault reason) := by
  have range_fault : ∀ a k act, withRange a k s act = .fault f → ∃ reason, f = .fatal reason (s.recordFault reason) := by
    intro a k act h
    obtain ⟨-, e⟩ | ⟨-, e⟩ := withRange_cases a k s act <;> rw [e] at h <;> cases h
    exact ⟨_, rfl⟩
  cases i with
  | drw => exact range_fault _ _ _ h
  | ldB => exact range_fault _ _ _ h
  | ldMemVx => exact range_fault _ _ _ h
  | ldVxMem => exact range_fault _ _ _ h
  | ret => simp only [exec, execRet] at h; split at h <;> cases h; exact ⟨_, rfl⟩
  | call => simp only [exec, execCall] at h; split at h <;> cases h; exact ⟨_, rfl⟩
  | skp => simp only [exec, execSkp] at h; split at h <;> cases h; exact ⟨_, rfl⟩
  | sknp => simp only [exec, execSknp] at h; split at h <;> cases h; exact ⟨_, rfl⟩
  | ldVxK => simp only [exec, execLdVxK] at h; split at h <;> cases h
  | addI => simp only [exec, execAddI] at h; split at h <;> cases h; exact ⟨_, rfl⟩
  | _ => cases h

/-- A completed step ran an instruction whose execute part completed (R61). -/
theorem step_next {s u : State} (h : step s = .next u) :
    ∃ w i t, s.fault = none ∧ s.Fetches w ∧ decodeWord w = .instr i ∧ exec i s = .next t ∧ u = timerPhase t := by
  obtain ⟨r, -, h'⟩ | ⟨-, -, h'⟩ | ⟨w, u', -, -, -, h'⟩ | ⟨w, i, hf, hw, hd, h'⟩ := step_cases s <;> rw [h'] at h
  · cases h
  · cases h
  · cases h
  · cases he : exec i s with
    | next t => rw [he] at h; cases h; exact ⟨w, i, t, hf, hw, hd, he, rfl⟩
    | fault f => rw [he] at h; cases h
    | refused r => rw [he] at h; cases h

/-- A fatal step began not faulted and left the state before it with FAULT recorded, and nothing else (R63, R118). -/
theorem step_fatal {s u : State} {reason : FatalReason} (h : step s = .fault (.fatal reason u)) :
    s.fault = none ∧ u = s.recordFault reason := by
  obtain ⟨r, -, h'⟩ | ⟨hf, -, h'⟩ | ⟨w, u', -, -, -, h'⟩ | ⟨w, i, hf, hw, hd, h'⟩ := step_cases s <;> rw [h'] at h
  · cases h
  · cases h; exact ⟨hf, rfl⟩
  · cases h
  · refine ⟨hf, ?_⟩
    cases he : exec i s with
    | next t => rw [he] at h; cases h
    | fault f => rw [he] at h; cases h; obtain ⟨r, hr⟩ := exec_fault he; cases hr; rfl
    | refused r => exact absurd he (exec_ne_refused i s r)

/-- A run whose first step completes goes on from the next state. -/
theorem core_run_succ {k : Nat} {s t : State} (h : step s = .next t) : core.run (k + 1) s = core.run k t := by
  have h' : core.step s = .next t := h
  simp only [Host.Core.run, h']

end Sys2Proof.Machine
end

