-- ==== Sys2Proof/Laws/Driver.lean ====
section
/-! SUPPORT. What the driver's actions can do, said once (R137). -/

namespace Sys2Proof.Machine

variable (d : Session) (s : State)

/-! ### The parts of a session -/

@[simp] theorem start_core : (Session.start s).core = s := rfl
@[simp] theorem start_last : (Session.start s).last = none := rfl
@[simp] theorem writeKeys_core (keys : Vector Bool 16) : (d.writeKeys keys).core = { d.core with keys := keys } := rfl
@[simp] theorem writeKeys_last (keys : Vector Bool 16) : (d.writeKeys keys).last = d.last := rfl
@[simp] theorem clearRedraw_core : d.clearRedraw.core = d.core.setRedraw false := rfl
@[simp] theorem clearRedraw_last : d.clearRedraw.last = d.last := rfl

/-! ### Requesting a step -/

/-- A step is refused with the word exactly when the CORE is not faulted and its fetch reads a word that decodes to it as
unknown (R117, R124). -/
theorem step_refused_iff {s : State} {u : Word} :
    step s = .refused (.unsupported u) ↔ s.fault = none ∧ ∃ w, s.Fetches w ∧ decodeWord w = .unknown u := by
  constructor
  · intro h
    simp only [step, endStep, raiseFatal] at h
    split at h
    · cases h
    · rename_i hf
      split at h
      · cases h
      · rename_i w hw
        split at h
        · rename_i u' hd
          cases h
          obtain ⟨v, hv, hv'⟩ | ⟨-, hv'⟩ := fetch_cases s <;> rw [hw] at hv' <;> cases hv'
          exact ⟨hf, w, hv, hd⟩
        · rename_i i _
          cases he : exec i s <;> rw [he] at h <;> cases h
          exact absurd he (exec_ne_refused i s _)
  · rintro ⟨hf, w, hw, hd⟩
    exact step_of_unknown hf hw hd

/-- The outcome of a requested step is that of `step`, and the state it leaves is the step's (R116). -/
theorem requestStep_cases {s t : State} {report : StepReport} (h : requestStep s = some (t, report)) :
    (step s = .next t ∧ report = .ok)
      ∨ (∃ reason, step s = .fault (.fatal reason t) ∧ report = .fatal reason)
      ∨ (∃ w, step s = .refused (.unsupported w) ∧ t = { s with soundEvent := false } ∧ report = .unsupported w) := by
  simp only [requestStep] at h
  split at h
  · cases h; exact .inl ⟨‹_›, rfl⟩
  · cases h; exact .inr (.inl ⟨_, ‹_›, rfl⟩)
  · cases h
  · rename_i r hr
    obtain m | w := r
    · cases h
    · cases h; exact .inr (.inr ⟨w, hr, rfl, rfl⟩)

/-- A request is allowed exactly when the step at this state has an outcome; its state and report are those of the request. -/
theorem request_eq_some {d e : Session} :
    d.request = some e ↔ ∃ t report, requestStep d.core = some (t, report) ∧ e = { core := t, last := some report } := by
  cases h : requestStep d.core <;> simp [Session.request, h, Prod.ext_iff, eq_comm]

/-! ### Skip and restart -/

/-- The skip, whole: it needs the outcome `Unsupported(w)` and uses it up (R137). -/
theorem skip_eq_some {d e : Session} :
    d.skip = some e ↔ ∃ w, d.last = some (.unsupported w) ∧ e = { core := d.core.advance, last := none } := by
  simp only [Session.skip]
  split <;> simp_all [eq_comm]

/-- The restart, whole: it needs a launch and forgets the outcome (R137). -/
theorem restart_eq_some {l : LaunchData} {d e : Session} :
    d.restart l = some e ↔
      ∃ t, launch d.core.params l = some t
        ∧ e = { core := { t with keys := d.core.keys, draws := d.core.draws }, last := none } := by
  cases h : launch d.core.params l <;> simp [Session.restart, h, eq_comm]

/-! ### One action and runs of actions -/

@[simp] theorem apply_requestStep : HostAction.requestStep.apply d = d.request := rfl
@[simp] theorem apply_skipUnsupported : HostAction.skipUnsupported.apply d = d.skip := rfl
@[simp] theorem apply_restart (l : LaunchData) : (HostAction.restart l).apply d = d.restart l := rfl
@[simp] theorem apply_writeKeys (keys : Vector Bool 16) : (HostAction.writeKeys keys).apply d = some (d.writeKeys keys) := rfl
@[simp] theorem apply_clearRedraw : HostAction.clearRedraw.apply d = some d.clearRedraw := rfl

/-- What one allowed action does (R137). -/
theorem apply_cases {a : HostAction} {d e : Session} (h : a.apply d = some e) :
    (a = .requestStep ∧ ∃ t report, requestStep d.core = some (t, report) ∧ e = { core := t, last := some report })
      ∨ (a = .skipUnsupported ∧ ∃ w, d.last = some (.unsupported w) ∧ e = { core := d.core.advance, last := none })
      ∨ (∃ l t, a = .restart l ∧ launch d.core.params l = some t
          ∧ e = { core := { t with keys := d.core.keys, draws := d.core.draws }, last := none })
      ∨ (∃ keys, a = .writeKeys keys ∧ e = d.writeKeys keys)
      ∨ (a = .clearRedraw ∧ e = d.clearRedraw) := by
  cases a with
  | requestStep => exact .inl ⟨rfl, request_eq_some.1 h⟩
  | skipUnsupported => exact .inr (.inl ⟨rfl, skip_eq_some.1 h⟩)
  | restart l =>
    obtain ⟨t, hl, he⟩ := restart_eq_some.1 h
    exact .inr (.inr (.inl ⟨l, t, rfl, hl, he⟩))
  | writeKeys keys => cases h; exact .inr (.inr (.inr (.inl ⟨keys, rfl, rfl⟩)))
  | clearRedraw => cases h; exact .inr (.inr (.inr (.inr ⟨rfl, rfl⟩)))

@[simp] theorem runActions_nil : runActions [] d = some d := rfl

theorem runActions_cons (a : HostAction) (as : List HostAction) :
    runActions (a :: as) d = (a.apply d).bind (runActions as) := rfl

/-- A run of a joined list is one run after the other. -/
theorem runActions_append (as bs : List HostAction) :
    runActions (as ++ bs) d = (runActions as d).bind (runActions bs) := by
  induction as generalizing d with
  | nil => rfl
  | cons a as ih =>
    rw [List.cons_append, runActions_cons, runActions_cons]
    cases h : a.apply d with
    | none => rfl
    | some e => exact ih e

/-- A property that every allowed action keeps holds after every run of actions. -/
theorem runActions_keeps {P : Session → Prop} (hstep : ∀ a d e, P d → HostAction.apply a d = some e → P e)
    {as : List HostAction} {d e : Session} (hd : P d) (h : runActions as d = some e) : P e := by
  induction as generalizing d with
  | nil => cases h; exact hd
  | cons a as ih =>
    rw [runActions_cons, Option.bind_eq_some_iff] at h
    obtain ⟨m, hm, hrun⟩ := h
    exact ih (hstep a d m hd hm) hrun

end Sys2Proof.Machine
end

