-- ==== Sys2Proof/Laws/Framebuffer.lean ====
section
/-! SUPPORT. The laws of the framebuffer: one toggle, a list of toggles, and the pixels of a sprite. -/

namespace Sys2Proof.Machine

/-- A blank framebuffer has every pixel 0. -/
@[simp] theorem blank_pixel (p : Pixel) : Framebuffer.blank.pixel p = false := by
  simp [Framebuffer.pixel, Framebuffer.blank]

/-- One toggle changes its own pixel and no other (R107). -/
theorem flip_pixel (fb : Framebuffer) (p q : Pixel) :
    (fb.flip p).pixel q = if q = p then !fb.pixel p else fb.pixel q := by
  obtain ⟨pc, pr⟩ := p
  obtain ⟨qc, qr⟩ := q
  simp only [Framebuffer.flip, Framebuffer.pixel, Prod.mk.injEq]
  by_cases hr : qr = pr
  · subst hr
    by_cases hc : qc = pc
    · subst hc; simp
    · have hc' : pc.val ≠ qc.val := fun e => hc (Fin.ext e.symm)
      simp [hc, Vector.getElem_set_ne _ _ hc']
  · have hr' : pr.val ≠ qr.val := fun e => hr (Fin.ext e.symm)
    simp [hr, Vector.getElem_set_ne _ _ hr']

/-- Toggling a list of distinct pixels changes exactly those, and the collision output is the OR of their old values
(R107, R108). -/
theorem drawPixels_spec (fb : Framebuffer) (ps : List Pixel) (h : ps.Nodup) :
    (∀ q, (fb.drawPixels ps).1.pixel q = (fb.pixel q ^^ decide (q ∈ ps)))
      ∧ (fb.drawPixels ps).2 = ps.any fb.pixel := by
  have gen : ∀ (ps : List Pixel) (acc : Framebuffer × Bool), ps.Nodup → (∀ q ∈ ps, acc.1.pixel q = fb.pixel q) →
      (∀ q, (ps.foldl (fun acc p => (Framebuffer.flip acc.1 p, acc.2 || Framebuffer.pixel acc.1 p)) acc).1.pixel q
          = (acc.1.pixel q ^^ decide (q ∈ ps)))
        ∧ (ps.foldl (fun acc p => (Framebuffer.flip acc.1 p, acc.2 || Framebuffer.pixel acc.1 p)) acc).2
          = (acc.2 || ps.any fb.pixel) := by
    intro ps
    induction ps with
    | nil => intro acc _ _; simp
    | cons p ps ih =>
      intro acc hnd heq
      obtain ⟨hp, hnd⟩ := List.nodup_cons.1 hnd
      have hold : ∀ q ∈ ps, (acc.1.flip p).pixel q = fb.pixel q := fun q hq => by
        have hne : q ≠ p := fun e => hp (e ▸ hq)
        rw [flip_pixel, if_neg hne, heq q (List.mem_cons_of_mem _ hq)]
      obtain ⟨h1, h2⟩ := ih (acc.1.flip p, acc.2 || acc.1.pixel p) hnd hold
      refine ⟨fun q => ?_, ?_⟩
      · rw [List.foldl_cons, h1, flip_pixel]
        by_cases hq : q = p
        · subst hq; simp [hp]
        · simp [hq]
      · rw [List.foldl_cons, h2, heq p List.mem_cons_self, List.any_cons, Bool.or_assoc]
  simpa [Framebuffer.drawPixels] using gen ps (fb, false) h (fun _ _ => rfl)

/-- The pixels of a sprite: those that a set bit of one of its bytes reaches (R106, R107). -/
theorem mem_spritePixels {m : Memory} {a n : Nat} {cx cy : Byte} {p : Pixel} :
    p ∈ spritePixels m a cx cy n ↔
      ∃ row col : Nat, row < n ∧ col < 8 ∧ (m.read (a + row)).getLsbD (7 - col) = true
        ∧ p.1.val = (cx.toNat + col) % 64 ∧ p.2.val = (cy.toNat + row) % 32 := by
  simp only [spritePixels, rowPixels, spriteBit, spritePixel, List.mem_flatMap, List.mem_map, List.mem_filter,
    List.mem_range]
  constructor
  · rintro ⟨row, hrow, col, ⟨hcol, hbit⟩, rfl⟩
    exact ⟨row, col, hrow, hcol, hbit, rfl, rfl⟩
  · rintro ⟨row, col, hrow, hcol, hbit, h1, h2⟩
    exact ⟨row, hrow, col, ⟨hcol, hbit⟩, Prod.ext (Fin.ext h1.symm) (Fin.ext h2.symm)⟩

/-- No pixel is visited twice in one draw of at most 32 rows (R107). -/
theorem spritePixels_nodup (m : Memory) (a : Nat) (cx cy : Byte) {n : Nat} (h : n ≤ 32) :
    (spritePixels m a cx cy n).Nodup := by
  refine List.nodup_flatMap.2 ⟨fun row _ => ?_, ?_⟩
  · refine (List.nodup_range.filter _).map_on fun c hc d hd e => ?_
    have hc := List.mem_range.1 (List.mem_filter.1 hc).1
    have hd := List.mem_range.1 (List.mem_filter.1 hd).1
    have := congrArg (fun p : Pixel => p.1.val) e
    simp only [spritePixel, Fin.ofNat] at this
    omega
  · refine (List.nodup_range (n := n)).imp_of_mem fun {r r'} hr hr' hne p hp hp' => ?_
    have hr := List.mem_range.1 hr
    have hr' := List.mem_range.1 hr'
    obtain ⟨c, -, rfl⟩ := List.mem_map.1 hp
    obtain ⟨c', -, e⟩ := List.mem_map.1 hp'
    have := congrArg (fun p : Pixel => p.2.val) e
    simp only [spritePixel, Fin.ofNat] at this
    omega

end Sys2Proof.Machine
end

