-- ==== Sys2Proof/Laws/PerInstr.lean ====
section
/-! SUPPORT. Per instruction: the encoder's word has the fixed bits that the instruction's row of the opcode table gives it
(R55, R60). -/

namespace Sys2Proof.Laws.FixedBits

/-- The word of `i` matches the row of the table that has its mnemonic. -/
def Statement (i : Instr) : Prop :=
  ∃ r ∈ opcodeTable, r.mnemonic = i.mnemonic ∧ r.matchesWord (encode i) = true

theorem cls : Statement (.cls) :=
  ⟨⟨"CLS", 0xFFFF#16, 0x00E0#16⟩, by decide, rfl, by simp [OpcodeRow.matchesWord, encode, mask_FFFF]⟩

theorem ret : Statement (.ret) :=
  ⟨⟨"RET", 0xFFFF#16, 0x00EE#16⟩, by decide, rfl, by simp [OpcodeRow.matchesWord, encode, mask_FFFF]⟩

theorem jp (nnn : Addr12) : Statement (.jp nnn) :=
  ⟨⟨"JP_addr", 0xF000#16, 0x1000#16⟩, by decide, rfl, by simp [OpcodeRow.matchesWord, encode, mask_F000]; rfl⟩

theorem call (nnn : Addr12) : Statement (.call nnn) :=
  ⟨⟨"CALL_addr", 0xF000#16, 0x2000#16⟩, by decide, rfl, by simp [OpcodeRow.matchesWord, encode, mask_F000]; rfl⟩

theorem seImm (x : RegIdx) (nn : Byte) : Statement (.seImm x nn) :=
  ⟨⟨"SE_Vx__nn", 0xF000#16, 0x3000#16⟩, by decide, rfl, by simp [OpcodeRow.matchesWord, encode, mask_F000]; rfl⟩

theorem sneImm (x : RegIdx) (nn : Byte) : Statement (.sneImm x nn) :=
  ⟨⟨"SNE_Vx__nn", 0xF000#16, 0x4000#16⟩, by decide, rfl, by simp [OpcodeRow.matchesWord, encode, mask_F000]; rfl⟩

theorem seReg (x y : RegIdx) : Statement (.seReg x y) :=
  ⟨⟨"SE_Vx__Vy", 0xF00F#16, 0x5000#16⟩, by decide, rfl, by simp [OpcodeRow.matchesWord, encode, mask_F00F]; rfl⟩

theorem ldImm (x : RegIdx) (nn : Byte) : Statement (.ldImm x nn) :=
  ⟨⟨"LD_Vx__nn", 0xF000#16, 0x6000#16⟩, by decide, rfl, by simp [OpcodeRow.matchesWord, encode, mask_F000]; rfl⟩

theorem addImm (x : RegIdx) (nn : Byte) : Statement (.addImm x nn) :=
  ⟨⟨"ADD_Vx__nn", 0xF000#16, 0x7000#16⟩, by decide, rfl, by simp [OpcodeRow.matchesWord, encode, mask_F000]; rfl⟩

theorem ldReg (x y : RegIdx) : Statement (.ldReg x y) :=
  ⟨⟨"LD_Vx__Vy", 0xF00F#16, 0x8000#16⟩, by decide, rfl, by simp [OpcodeRow.matchesWord, encode, mask_F00F]; rfl⟩

theorem orReg (x y : RegIdx) : Statement (.orReg x y) :=
  ⟨⟨"OR_Vx__Vy", 0xF00F#16, 0x8001#16⟩, by decide, rfl, by simp [OpcodeRow.matchesWord, encode, mask_F00F]; rfl⟩

theorem andReg (x y : RegIdx) : Statement (.andReg x y) :=
  ⟨⟨"AND_Vx__Vy", 0xF00F#16, 0x8002#16⟩, by decide, rfl, by simp [OpcodeRow.matchesWord, encode, mask_F00F]; rfl⟩

theorem xorReg (x y : RegIdx) : Statement (.xorReg x y) :=
  ⟨⟨"XOR_Vx__Vy", 0xF00F#16, 0x8003#16⟩, by decide, rfl, by simp [OpcodeRow.matchesWord, encode, mask_F00F]; rfl⟩

theorem addReg (x y : RegIdx) : Statement (.addReg x y) :=
  ⟨⟨"ADD_Vx__Vy", 0xF00F#16, 0x8004#16⟩, by decide, rfl, by simp [OpcodeRow.matchesWord, encode, mask_F00F]; rfl⟩

theorem subReg (x y : RegIdx) : Statement (.subReg x y) :=
  ⟨⟨"SUB_Vx__Vy", 0xF00F#16, 0x8005#16⟩, by decide, rfl, by simp [OpcodeRow.matchesWord, encode, mask_F00F]; rfl⟩

theorem shr (x y : RegIdx) : Statement (.shr x y) :=
  ⟨⟨"SHR_Vx__Vy", 0xF00F#16, 0x8006#16⟩, by decide, rfl, by simp [OpcodeRow.matchesWord, encode, mask_F00F]; rfl⟩

theorem subnReg (x y : RegIdx) : Statement (.subnReg x y) :=
  ⟨⟨"SUBN_Vx__Vy", 0xF00F#16, 0x8007#16⟩, by decide, rfl, by simp [OpcodeRow.matchesWord, encode, mask_F00F]; rfl⟩

theorem shl (x y : RegIdx) : Statement (.shl x y) :=
  ⟨⟨"SHL_Vx__Vy", 0xF00F#16, 0x800E#16⟩, by decide, rfl, by simp [OpcodeRow.matchesWord, encode, mask_F00F]; rfl⟩

theorem sneReg (x y : RegIdx) : Statement (.sneReg x y) :=
  ⟨⟨"SNE_Vx__Vy", 0xF00F#16, 0x9000#16⟩, by decide, rfl, by simp [OpcodeRow.matchesWord, encode, mask_F00F]; rfl⟩

theorem ldI (nnn : Addr12) : Statement (.ldI nnn) :=
  ⟨⟨"LD_I__addr", 0xF000#16, 0xA000#16⟩, by decide, rfl, by simp [OpcodeRow.matchesWord, encode, mask_F000]; rfl⟩

theorem jpV0 (nnn : Addr12) : Statement (.jpV0 nnn) :=
  ⟨⟨"JP_V0__addr", 0xF000#16, 0xB000#16⟩, by decide, rfl, by simp [OpcodeRow.matchesWord, encode, mask_F000]; rfl⟩

theorem rnd (x : RegIdx) (nn : Byte) : Statement (.rnd x nn) :=
  ⟨⟨"RND_Vx__nn", 0xF000#16, 0xC000#16⟩, by decide, rfl, by simp [OpcodeRow.matchesWord, encode, mask_F000]; rfl⟩

theorem drw (x y : RegIdx) (n : Fin 16) : Statement (.drw x y n) :=
  ⟨⟨"DRW_Vx__Vy__n", 0xF000#16, 0xD000#16⟩, by decide, rfl, by simp [OpcodeRow.matchesWord, encode, mask_F000]; rfl⟩

theorem skp (x : RegIdx) : Statement (.skp x) :=
  ⟨⟨"SKP_Vx", 0xF0FF#16, 0xE09E#16⟩, by decide, rfl, by simp [OpcodeRow.matchesWord, encode, mask_F0FF]; rfl⟩

theorem sknp (x : RegIdx) : Statement (.sknp x) :=
  ⟨⟨"SKNP_Vx", 0xF0FF#16, 0xE0A1#16⟩, by decide, rfl, by simp [OpcodeRow.matchesWord, encode, mask_F0FF]; rfl⟩

theorem ldVxDt (x : RegIdx) : Statement (.ldVxDt x) :=
  ⟨⟨"LD_Vx__DT", 0xF0FF#16, 0xF007#16⟩, by decide, rfl, by simp [OpcodeRow.matchesWord, encode, mask_F0FF]; rfl⟩

theorem ldVxK (x : RegIdx) : Statement (.ldVxK x) :=
  ⟨⟨"LD_Vx__K", 0xF0FF#16, 0xF00A#16⟩, by decide, rfl, by simp [OpcodeRow.matchesWord, encode, mask_F0FF]; rfl⟩

theorem ldDtVx (x : RegIdx) : Statement (.ldDtVx x) :=
  ⟨⟨"LD_DT__Vx", 0xF0FF#16, 0xF015#16⟩, by decide, rfl, by simp [OpcodeRow.matchesWord, encode, mask_F0FF]; rfl⟩

theorem ldStVx (x : RegIdx) : Statement (.ldStVx x) :=
  ⟨⟨"LD_ST__Vx", 0xF0FF#16, 0xF018#16⟩, by decide, rfl, by simp [OpcodeRow.matchesWord, encode, mask_F0FF]; rfl⟩

theorem addI (x : RegIdx) : Statement (.addI x) :=
  ⟨⟨"ADD_I__Vx", 0xF0FF#16, 0xF01E#16⟩, by decide, rfl, by simp [OpcodeRow.matchesWord, encode, mask_F0FF]; rfl⟩

theorem ldF (x : RegIdx) : Statement (.ldF x) :=
  ⟨⟨"LD_F__Vx", 0xF0FF#16, 0xF029#16⟩, by decide, rfl, by simp [OpcodeRow.matchesWord, encode, mask_F0FF]; rfl⟩

theorem ldB (x : RegIdx) : Statement (.ldB x) :=
  ⟨⟨"LD_B__Vx", 0xF0FF#16, 0xF033#16⟩, by decide, rfl, by simp [OpcodeRow.matchesWord, encode, mask_F0FF]; rfl⟩

theorem ldMemVx (x : RegIdx) : Statement (.ldMemVx x) :=
  ⟨⟨"LD__I___Vx", 0xF0FF#16, 0xF055#16⟩, by decide, rfl, by simp [OpcodeRow.matchesWord, encode, mask_F0FF]; rfl⟩

theorem ldVxMem (x : RegIdx) : Statement (.ldVxMem x) :=
  ⟨⟨"LD_Vx___I", 0xF0FF#16, 0xF065#16⟩, by decide, rfl, by simp [OpcodeRow.matchesWord, encode, mask_F0FF]; rfl⟩

end Sys2Proof.Laws.FixedBits
end

