-- ==== Sys2Proof/Tests/Slice0.lean ====
section
/-! SUPPORT. Tests: expected results are the worked examples and vectors of spec/95_test_vectors.md and of the rules named in
each comment. Witnesses: for each obligation with hypotheses, a state and operands that meet them. -/

namespace Sys2Proof.Tests
open Sys2Proof.Machine

/-! ## Well-formedness smoke test: one ill-formed term for each check of WellFormed.lean -/

/-- A font of 79 bytes. -/
def shortFont : LaunchData := { font := List.replicate 79 0#8, image := [] }

/-- An image of 3585 bytes. -/
def longImage : LaunchData := { font := List.replicate 80 0#8, image := List.replicate 3585 0#8 }

/-- The longest image. -/
def fullImage : LaunchData := { font := List.replicate 80 0#8, image := List.replicate 3584 0#8 }

theorem test_short_font_refused : shortFont.fontOk = false := by decide

theorem longImage_length : longImage.image.length = 3585 := List.length_replicate

theorem fullImage_length : fullImage.image.length = 3584 := List.length_replicate

theorem fullImage_font_length : fullImage.font.length = 80 := List.length_replicate

theorem test_long_image_refused : longImage.imageOk = false := by
  rw [LaunchData.imageOk, longImage_length]; decide

theorem test_full_image_accepted : fullImage.wellFormed = true := by
  rw [LaunchData.wellFormed, LaunchData.fontOk, LaunchData.imageOk, fullImage_length, fullImage_font_length]; decide

/-! ## Decoding: words written out from the patterns of R55, every constructor once -/

theorem test_decode_cls : decodeWord 0x00E0#16 = .instr .cls := by decide
theorem test_decode_ret : decodeWord 0x00EE#16 = .instr .ret := by decide
theorem test_decode_jp : decodeWord 0x1ABC#16 = .instr (.jp 0xABC#12) := by decide
theorem test_decode_call : decodeWord 0x2400#16 = .instr (.call 0x400#12) := by decide
theorem test_decode_seImm : decodeWord 0x3342#16 = .instr (.seImm 3 0x42#8) := by decide
theorem test_decode_sneImm : decodeWord 0x4A42#16 = .instr (.sneImm 10 0x42#8) := by decide
theorem test_decode_seReg : decodeWord 0x5AB0#16 = .instr (.seReg 10 11) := by decide
theorem test_decode_ldImm : decodeWord 0x6005#16 = .instr (.ldImm 0 0x05#8) := by decide
theorem test_decode_addImm : decodeWord 0x7AFF#16 = .instr (.addImm 10 0xFF#8) := by decide
theorem test_decode_ldReg : decodeWord 0x8AB0#16 = .instr (.ldReg 10 11) := by decide
theorem test_decode_orReg : decodeWord 0x8AB1#16 = .instr (.orReg 10 11) := by decide
theorem test_decode_andReg : decodeWord 0x8AB2#16 = .instr (.andReg 10 11) := by decide
theorem test_decode_xorReg : decodeWord 0x8AB3#16 = .instr (.xorReg 10 11) := by decide
theorem test_decode_addReg : decodeWord 0x8AB4#16 = .instr (.addReg 10 11) := by decide
theorem test_decode_subReg : decodeWord 0x8AB5#16 = .instr (.subReg 10 11) := by decide
theorem test_decode_shr : decodeWord 0x8AB6#16 = .instr (.shr 10 11) := by decide
theorem test_decode_subnReg : decodeWord 0x8AB7#16 = .instr (.subnReg 10 11) := by decide
theorem test_decode_shl : decodeWord 0x8ABE#16 = .instr (.shl 10 11) := by decide
theorem test_decode_sneReg : decodeWord 0x9120#16 = .instr (.sneReg 1 2) := by decide
theorem test_decode_ldI : decodeWord 0xA2F0#16 = .instr (.ldI 0x2F0#12) := by decide
theorem test_decode_jpV0 : decodeWord 0xB123#16 = .instr (.jpV0 0x123#12) := by decide
theorem test_decode_rnd : decodeWord 0xC30F#16 = .instr (.rnd 3 0x0F#8) := by decide
theorem test_decode_drw : decodeWord 0xD125#16 = .instr (.drw 1 2 5) := by decide
theorem test_decode_skp : decodeWord 0xE49E#16 = .instr (.skp 4) := by decide
theorem test_decode_sknp : decodeWord 0xE4A1#16 = .instr (.sknp 4) := by decide
theorem test_decode_ldVxDt : decodeWord 0xF307#16 = .instr (.ldVxDt 3) := by decide
theorem test_decode_ldVxK : decodeWord 0xF30A#16 = .instr (.ldVxK 3) := by decide
theorem test_decode_ldDtVx : decodeWord 0xF215#16 = .instr (.ldDtVx 2) := by decide
theorem test_decode_ldStVx : decodeWord 0xF218#16 = .instr (.ldStVx 2) := by decide
theorem test_decode_addI : decodeWord 0xF11E#16 = .instr (.addI 1) := by decide
theorem test_decode_ldF : decodeWord 0xF229#16 = .instr (.ldF 2) := by decide
theorem test_decode_ldB : decodeWord 0xF533#16 = .instr (.ldB 5) := by decide
theorem test_decode_ldMemVx : decodeWord 0xFA55#16 = .instr (.ldMemVx 10) := by decide
theorem test_decode_ldVxMem : decodeWord 0xF265#16 = .instr (.ldVxMem 2) := by decide

/-- The unknown words of W1 and E3 to E10. -/
theorem test_decode_unknown :
    decodeWord 0x0000#16 = .unknown 0x0000#16
      ∧ decodeWord 0x0123#16 = .unknown 0x0123#16
      ∧ decodeWord 0x00E1#16 = .unknown 0x00E1#16
      ∧ decodeWord 0x5AB1#16 = .unknown 0x5AB1#16
      ∧ decodeWord 0x9AB5#16 = .unknown 0x9AB5#16
      ∧ decodeWord 0x8AB8#16 = .unknown 0x8AB8#16
      ∧ decodeWord 0x8ABF#16 = .unknown 0x8ABF#16
      ∧ decodeWord 0xE59F#16 = .unknown 0xE59F#16
      ∧ decodeWord 0xF5FF#16 = .unknown 0xF5FF#16
      ∧ decodeWord 0xFFFF#16 = .unknown 0xFFFF#16 :=
  ⟨by decide, by decide, by decide, by decide, by decide, by decide, by decide, by decide, by decide, by decide⟩

/-- Bytes: high byte first, two bytes an instruction, fewer than two are no word (R39, R51). -/
theorem test_decode_bytes :
    decodeBytes [0xD1#8, 0x25#8, 0x60#8] = .instr (.drw 1 2 5) [0x60#8] ∧ decodeBytes [0x00#8, 0xE1#8] = .unknown 0x00E1#16
      ∧ decodeBytes [0x60#8] = .truncated := by decide

/-- The host's numbering of a row's word. -/
theorem test_decodeTableWord : decodeTableWord 16 0xF265 = some (.ldVxMem 2) ∧ decodeTableWord 16 0x0123 = none := by
  decide

/-- Encoding: the examples of R60. -/
theorem test_encode :
    encode (.seImm 3 0x42#8) = 0x3342#16 ∧ encode (.drw 1 2 5) = 0xD125#16 ∧ encode (.ldMemVx 10) = 0xFA55#16 := by decide

/-! ## Steps: the vectors of 95_test_vectors.md part 2, one step from the reset state with what the row's start column gives -/

/-- The reset state, the start state of every vector. -/
def base : State := State.reset

/-- One step that runs the word `w` at pc. -/
def run1 (s : State) (w : Nat) : Result := step (s.withFetchWord 16 w)

/-- The next state of that step. -/
def next1 (s : State) (w : Nat) : Option State := nextState? (run1 s w)

/-- The fatal reason of that step. -/
def fatal1 (s : State) (w : Nat) : Option FatalReason := fatalReason? (run1 s w)

/-- Memory bytes from `a`, for the start column. -/
def withMem (s : State) (a : Nat) (bs : List Byte) : State := s.setMem (s.mem.writeRun a bs)

/-- Keys held, for the KEY column. -/
def withKeys (s : State) (ks : List (Fin 16)) : State := { s with keys := Vector.ofFn fun k => decide (k ∈ ks) }

/-- T1 (and R71). -/
theorem test_step_ldImm_timers :
    (next1 ((base.setDelay 3).setSound 1) 0x6005).map (fun t => (t.reg 0, t.pc, t.delay, t.sound, t.soundEvent))
      = some (5, 0x202, 2, 0, true) := by decide
/-- A1. -/
theorem test_ldImm_vf : (next1 base 0x6F12).map (fun t => t.reg 15) = some 0x12 := by decide
/-- T2. -/
theorem test_fetch_last_word :
    (next1 (base.setPc 0xFFE) 0x6001).map (fun t => (t.reg 0, t.pc)) = some (1, 0x1000) := by decide
/-- T3, T4, T5. -/
theorem test_fetch_out_of_range :
    fatalReason? (step (withMem (base.setPc 0xFFF) 0xFFF [0x60])) = some (.memoryOutOfRange 0x1000)
      ∧ fatalReason? (step (base.setPc 0x1000)) = some (.memoryOutOfRange 0x1000)
      ∧ fatalReason? (step (base.setPc 0xFFFF)) = some (.memoryOutOfRange 0xFFFF) := by decide
/-- T6 and P7: the step reports the word and the driver's state keeps its timers. -/
theorem test_unsupported :
    requestStep ((base.setDelay 3).setSound 2) = some ((base.setDelay 3).setSound 2, .unsupported 0x0000) := by decide
/-- T7. -/
theorem test_faulted_has_no_step : requestStep (base.recordFault .stackUnderflow) = none := by decide
/-- P6: RET at reset is fatal, and the state keeps its reset values but for FAULT. -/
theorem test_fatal_state :
    requestStep (base.withFetchWord 16 0x00EE)
      = some ({ base.withFetchWord 16 0x00EE with fault := some .stackUnderflow }, .fatal .stackUnderflow) := by decide

/-- J1, J2. -/
theorem test_jp :
    (next1 base 0x1ABC).map (fun t => t.pc) = some 0xABC ∧ (next1 base 0x1201).map (fun t => t.pc) = some 0x201 := by decide
/-- J5: not masked to 12 bits. -/
theorem test_jpV0 : (next1 (base.setReg 0 0xFF) 0xBFFF).map (fun t => t.pc) = some 0x10FE := by decide
/-- CF2. -/
theorem test_call :
    (next1 { base with sp := 15 } 0x2400).map (fun t => (t.pc, t.sp, t.stack[15])) = some (0x400, 16, 0x200) := by decide
/-- CF3. -/
theorem test_call_overflow : fatal1 { base with sp := 16 } 0x2400 = some .stackOverflow := by decide
/-- CF5: the +2 wraps. -/
theorem test_ret :
    (next1 { base with sp := 16, stack := base.stack.set 15 0xFFFE } 0x00EE).map (fun t => (t.pc, t.sp)) = some (0, 15) := by
  decide
/-- CF4: the entry is not cleared. -/
theorem test_ret_keeps_entry :
    (next1 { base with sp := 1, stack := base.stack.set 0 0x300 } 0x00EE).map (fun t => (t.pc, t.sp, t.stack[0]))
      = some (0x302, 0, 0x300) := by decide

/-- S1, S2. -/
theorem test_seImm :
    (next1 (base.setReg 10 0x42) 0x3A42).map (fun t => t.pc) = some 0x204
      ∧ (next1 (base.setReg 10 0x43) 0x3A42).map (fun t => t.pc) = some 0x202 := by decide
/-- S3, S4. -/
theorem test_sneImm :
    (next1 (base.setReg 10 0x42) 0x4A42).map (fun t => t.pc) = some 0x202
      ∧ (next1 base 0x4A42).map (fun t => t.pc) = some 0x204 := by decide
/-- S5, S6. -/
theorem test_seReg :
    (next1 ((base.setReg 10 7).setReg 11 7) 0x5AB0).map (fun t => t.pc) = some 0x204
      ∧ (next1 ((base.setReg 10 7).setReg 11 8) 0x5AB0).map (fun t => t.pc) = some 0x202 := by decide
/-- S8, S9. -/
theorem test_sneReg :
    (next1 ((base.setReg 10 7).setReg 11 7) 0x9AB0).map (fun t => t.pc) = some 0x202
      ∧ (next1 ((base.setReg 10 7).setReg 11 8) 0x9AB0).map (fun t => t.pc) = some 0x204 := by decide

/-- A2: wraps, VF unchanged. -/
theorem test_addImm :
    (next1 ((base.setReg 10 1).setReg 15 9) 0x7AFF).map (fun t => (t.reg 10, t.reg 15)) = some (0, 9) := by decide
/-- A4. -/
theorem test_ldReg : (next1 (base.setReg 11 0x99) 0x8AB0).map (fun t => t.reg 10) = some 0x99 := by decide
/-- A5. -/
theorem test_orReg :
    (next1 (((base.setReg 10 0xF0).setReg 11 0x0F).setReg 15 5) 0x8AB1).map (fun t => (t.reg 10, t.reg 15))
      = some (0xFF, 5) := by decide
/-- A6. -/
theorem test_andReg :
    (next1 (((base.setReg 10 0xF0).setReg 11 0x3C).setReg 15 5) 0x8AB2).map (fun t => (t.reg 10, t.reg 15))
      = some (0x30, 5) := by decide
/-- A7. -/
theorem test_xorReg :
    (next1 (((base.setReg 10 0xFF).setReg 11 0x0F).setReg 15 5) 0x8AB3).map (fun t => (t.reg 10, t.reg 15))
      = some (0xF0, 5) := by decide
/-- A10, A9 (W3). -/
theorem test_addReg :
    (next1 ((base.setReg 10 255).setReg 11 1) 0x8AB4).map (fun t => (t.reg 10, t.reg 15)) = some (0, 1)
      ∧ (next1 ((base.setReg 10 254).setReg 11 1) 0x8AB4).map (fun t => (t.reg 10, t.reg 15)) = some (0xFF, 0) := by decide
/-- A13, A14: register 15 as destination, and as operand. -/
theorem test_addReg_vf :
    (next1 ((base.setReg 15 200).setReg 1 100) 0x8F14).map (fun t => t.reg 15) = some 1
      ∧ (next1 ((base.setReg 1 1).setReg 15 255) 0x81F4).map (fun t => (t.reg 1, t.reg 15)) = some (0, 1) := by decide
/-- A15, A16 (W4). -/
theorem test_subReg :
    (next1 ((base.setReg 10 9).setReg 11 9) 0x8AB5).map (fun t => (t.reg 10, t.reg 15)) = some (0, 1)
      ∧ (next1 ((base.setReg 10 3).setReg 11 5) 0x8AB5).map (fun t => (t.reg 10, t.reg 15)) = some (0xFE, 0) := by decide
/-- A18. -/
theorem test_subReg_vf : (next1 ((base.setReg 15 1).setReg 1 2) 0x8F15).map (fun t => t.reg 15) = some 0 := by decide
/-- A19, A20. -/
theorem test_subnReg :
    (next1 ((base.setReg 10 3).setReg 11 5) 0x8AB7).map (fun t => (t.reg 10, t.reg 15)) = some (2, 1)
      ∧ (next1 ((base.setReg 10 5).setReg 11 3) 0x8AB7).map (fun t => (t.reg 10, t.reg 15)) = some (0xFE, 0) := by decide
/-- A22, A23: the two settings of SHIFT_SOURCE. -/
theorem test_shr :
    (next1 ((base.setReg 10 0x05).setReg 11 0x80) 0x8AB6).map (fun t => (t.reg 10, t.reg 15)) = some (2, 1)
      ∧ (next1 { (base.setReg 10 0x05).setReg 11 0x80 with params := ⟨.Y, .wrap⟩ } 0x8AB6).map
          (fun t => (t.reg 10, t.reg 11, t.reg 15)) = some (0x40, 0x80, 0) := by decide
/-- A27. -/
theorem test_shr_vf : (next1 (base.setReg 15 3) 0x8F06).map (fun t => t.reg 15) = some 1 := by decide
/-- A25, A26. -/
theorem test_shl :
    (next1 ((base.setReg 10 0x81).setReg 11 0x01) 0x8ABE).map (fun t => (t.reg 10, t.reg 15)) = some (2, 1)
      ∧ (next1 { (base.setReg 10 0x81).setReg 11 0x01 with params := ⟨.Y, .wrap⟩ } 0x8ABE).map
          (fun t => (t.reg 10, t.reg 15)) = some (2, 0) := by decide
/-- A28. -/
theorem test_shl_vf : (next1 (base.setReg 15 0x80) 0x8F0E).map (fun t => t.reg 15) = some 1 := by decide
/-- A30: a mask of 0 gives 0, whatever the random byte. -/
theorem test_rnd : (nextState? (exec (.rnd 10 0) (base.setReg 10 7))).map (fun t => t.reg 10) = some 0 := by
  simp [exec, execRnd, nextState?]

/-- M1. -/
theorem test_ldI : (next1 base 0xA123).map (fun t => t.index) = some 0x123 := by decide
/-- M2, M3. -/
theorem test_addI :
    (next1 (((base.setIndex 0xFFF).setReg 5 1).setReg 15 7) 0xF51E).map (fun t => (t.index, t.reg 15)) = some (0x1000, 7)
      ∧ (next1 ((base.setIndex 0xFFFF).setReg 5 1) 0xF51E).map (fun t => t.index) = some 0 := by decide
/-- M4. -/
theorem test_addI_fault :
    fatal1 { (base.setIndex 0xFFFF).setReg 5 1 with params := ⟨.X, .fault⟩ } 0xF51E = some .indexOverflow := by decide
/-- FN1, FN3. -/
theorem test_ldF :
    (next1 (base.setReg 5 0x0A) 0xF529).map (fun t => t.index) = some 0x32
      ∧ (next1 (base.setReg 0 0xFF) 0xF029).map (fun t => t.index) = some 0x4FB := by decide
/-- M5 (W7). -/
theorem test_ldB :
    (next1 ((base.setIndex 0x300).setReg 5 255) 0xF533).map
        (fun t => (t.mem.read 0x300, t.mem.read 0x301, t.mem.read 0x302, t.index)) = some (2, 5, 5, 0x300) := by decide
/-- M8, M15. -/
theorem test_ldB_out_of_range :
    fatal1 ((base.setIndex 0xFFE).setReg 5 1) 0xF533 = some (.memoryOutOfRange 0x1000)
      ∧ fatal1 (base.setIndex 0x1005) 0xF033 = some (.memoryOutOfRange 0x1005) := by decide
/-- M9. -/
theorem test_ldMemVx :
    (next1 ((((base.setIndex 0x300).setReg 0 1).setReg 1 2).setReg 2 3 |>.setReg 3 4) 0xF255).map
        (fun t => ((List.range 4).map (fun k => t.mem.read (0x300 + k)), t.index)) = some ([1, 2, 3, 0], 0x300) := by decide
/-- M11. -/
theorem test_ldMemVx_out_of_range : fatal1 (base.setIndex 0xFF1) 0xFF55 = some (.memoryOutOfRange 0x1000) := by decide
/-- M12. -/
theorem test_ldVxMem :
    (next1 (withMem ((base.setIndex 0x300).setReg 3 4) 0x300 [7, 8, 9]) 0xF265).map
        (fun t => (t.reg 0, t.reg 1, t.reg 2, t.reg 3, t.index)) = some (7, 8, 9, 4, 0x300) := by decide
/-- M13. -/
theorem test_ldVxMem_vf :
    (next1 (withMem (base.setIndex 0x300) 0x30F [0x77]) 0xFF65).map (fun t => (t.reg 14, t.reg 15)) = some (0, 0x77) := by
  decide

/-- TM1. -/
theorem test_ldVxDt : (next1 (base.setDelay 9) 0xF507).map (fun t => (t.reg 5, t.delay)) = some (9, 8) := by decide
/-- TM2, TM3. -/
theorem test_ldDtVx :
    (next1 (base.setReg 5 5) 0xF515).map (fun t => t.delay) = some 4
      ∧ (next1 (base.setDelay 3) 0xF515).map (fun t => t.delay) = some 0 := by decide
/-- TM4, TM5, TM6. -/
theorem test_ldStVx :
    (next1 (base.setReg 5 1) 0xF518).map (fun t => (t.sound, t.soundEvent)) = some (0, true)
      ∧ (next1 (base.setReg 5 2) 0xF518).map (fun t => (t.sound, t.soundEvent)) = some (1, false)
      ∧ (next1 (base.setSound 1) 0xF518).map (fun t => (t.sound, t.soundEvent)) = some (0, false) := by decide

/-- G2: wraps at the right edge. -/
theorem test_drw :
    (next1 (withMem (((base.setIndex 0x300).setReg 0 63).setReg 1 31) 0x300 [0x81]) 0xD011).map
        (fun t => (t.fb.pixel (63, 31), t.fb.pixel (6, 31), t.fb.pixel (0, 31), t.reg 15, t.redraw))
      = some (true, true, false, 0, true) := by decide
/-- G4: a collision on one pixel. -/
theorem test_drw_collision :
    (next1 (withMem ((base.setIndex 0x300).setFb (base.fb.flip (3, 0))) 0x300 [0xFF]) 0xD011).map
        (fun t => ((List.range 8).map (fun c => t.fb.pixel (Fin.ofNat 64 c, 0)), t.reg 15))
      = some ([true, true, true, false, true, true, true, true], 1) := by decide
/-- G10. -/
theorem test_cls :
    (next1 ((base.setFb ((base.fb.flip (0, 0)).flip (63, 31))).setReg 15 3) 0x00E0).map
        (fun t => (t.fb, t.redraw, t.reg 15)) = some (Framebuffer.blank, false, 3) := by decide

/-- K1, K2. -/
theorem test_skp :
    (next1 (withKeys (base.setReg 5 3) [3]) 0xE59E).map (fun t => t.pc) = some 0x204
      ∧ (next1 (base.setReg 5 3) 0xE59E).map (fun t => t.pc) = some 0x202 := by decide
/-- K5. -/
theorem test_skp_fatal : fatal1 (base.setReg 5 16) 0xE59E = some (.keyIndexOutOfRange 16) := by decide
/-- K3, K4. -/
theorem test_sknp :
    (next1 (withKeys (base.setReg 5 3) [3]) 0xE5A1).map (fun t => t.pc) = some 0x202
      ∧ (next1 (base.setReg 5 3) 0xE5A1).map (fun t => t.pc) = some 0x204 := by decide
/-- K6. -/
theorem test_sknp_fatal : fatal1 (base.setReg 5 255) 0xE5A1 = some (.keyIndexOutOfRange 255) := by decide
/-- K9. -/
theorem test_ldVxK : (next1 (withKeys base [4, 9]) 0xF50A).map (fun t => (t.reg 5, t.pc)) = some (4, 0x202) := by decide
/-- K8. -/
theorem test_ldVxK_waits :
    (next1 (base.setDelay 2) 0xF50A).map (fun t => (t.reg 5, t.pc, t.delay)) = some (0, 0x200, 1) := by decide
/-- X1 (and P7): the driver's skip after the report. -/
theorem test_driver_skip :
    (runActions [.requestStep, .skipUnsupported] (Session.start ((base.setDelay 3).withFetchWord 16 0x5121))).map Session.core
      = some (((base.setDelay 3).withFetchWord 16 0x5121).setPc 0x202) := by decide
/-- R137: no skip without a report, none after an `Ok` step, and one skip a report. -/
theorem test_driver_skip_needs_report :
    runActions [.skipUnsupported] (Session.start (base.withFetchWord 16 0x5121)) = none
      ∧ runActions [.requestStep, .skipUnsupported] (Session.start (base.withFetchWord 16 0x6005)) = none
      ∧ runActions [.requestStep, .skipUnsupported, .skipUnsupported] (Session.start (base.withFetchWord 16 0x5121)) = none := by
  decide

/-! ## Witnesses -/

/-- The reset state with the word `w` at pc. -/
def at200 (w : Nat) : State := base.withFetchWord 16 w

theorem witness_EncodeOfDecode : decodeWord 0xDFFF#16 = .instr (.drw 15 15 15) := by decide

theorem witness_DecoderAgreesWithOpcodeTable :
    decodeWord 0x00EE#16 = .instr .ret ∧ decodeWord 0x00ED#16 = .unknown 0x00ED#16 := by decide

theorem witness_StepRunsDecodedInstruction :
    (at200 0x6005).fault = none ∧ (at200 0x6005).Fetches 0x6005#16 ∧ decodeWord 0x6005#16 = .instr (.ldImm 0 5#8)
      ∧ ∃ t, exec (.ldImm 0 5#8) (at200 0x6005) = .next t :=
  ⟨rfl, ⟨by decide, by decide⟩, by decide, _, rfl⟩

theorem witness_StepRunsDecodedInstruction_fault :
    (at200 0x00EE).fault = none ∧ (at200 0x00EE).Fetches 0x00EE#16 ∧ decodeWord 0x00EE#16 = .instr .ret
      ∧ ∃ f, exec .ret (at200 0x00EE) = .fault f :=
  ⟨rfl, ⟨by decide, by decide⟩, by decide, _, rfl⟩

theorem witness_FetchReadsTwoBytesOrIsFatal :
    (base.setPc 0xFFE#16).pc.toNat ≤ 0xFFE ∧ ((base.setPc 0xFFF#16).fault = none ∧ (base.setPc 0xFFF#16).pc.toNat = 0xFFF)
      ∧ (base.setPc 0x1000#16).fault = none ∧ 0x1000 ≤ (base.setPc 0x1000#16).pc.toNat := by decide

theorem witness_UnsupportedWordIsReported :
    (at200 0x5121).fault = none ∧ (at200 0x5121).Fetches 0x5121#16 ∧ decodeWord 0x5121#16 = .unknown 0x5121#16 :=
  ⟨rfl, ⟨by decide, by decide⟩, by decide⟩

theorem witness_FaultIsStickyUntilRestart :
    (Session.start (base.recordFault .stackOverflow)).core.fault = some .stackOverflow
      ∧ (∀ l, HostAction.restart l ∉ [HostAction.clearRedraw, .writeKeys (Vector.replicate 16 true)])
      ∧ (runActions [.clearRedraw, .writeKeys (Vector.replicate 16 true)]
          (Session.start (base.recordFault .stackOverflow))).isSome = true :=
  ⟨rfl, by simp, by decide⟩

theorem witness_FatalStepSetsOnlyFault : ∃ u, step (at200 0x00EE) = .fault (.fatal .stackUnderflow u) := ⟨_, rfl⟩

theorem witness_FatalReasons_stackOverflow :
    ∃ u, exec (.call 0x400#12) { base with sp := 16 } = .fault (.fatal .stackOverflow u) := ⟨_, rfl⟩
theorem witness_FatalReasons_stackUnderflow : ∃ u, exec .ret base = .fault (.fatal .stackUnderflow u) := ⟨_, rfl⟩
theorem witness_FatalReasons_memoryOutOfRange :
    ∃ u, exec (.ldMemVx 1) (base.setIndex 0xFFF#16) = .fault (.fatal (.memoryOutOfRange 0x1000) u) := ⟨_, rfl⟩
theorem witness_FatalReasons_keyIndexOutOfRange :
    ∃ u, exec (.skp 5) (base.setReg 5 16#8) = .fault (.fatal (.keyIndexOutOfRange 16#8) u) := ⟨_, rfl⟩
theorem witness_FatalReasons_indexOverflow :
    ∃ u, exec (.addI 5) { (base.setReg 5 1#8).setIndex 0xFFFF#16 with params := ⟨.X, .fault⟩ }
      = .fault (.fatal .indexOverflow u) := ⟨_, rfl⟩

theorem witness_PcUpdatePolicy :
    (∃ t, exec (.jp 0xFFF#12) base = .next t) ∧ (∃ t, exec (.call 0xFFF#12) base = .next t)
      ∧ (∃ t, exec (.jpV0 0xFFF#12) (base.setReg 0 255#8) = .next t) ∧ (∃ t, exec .ret { base with sp := 1 } = .next t)
      ∧ (∃ t, exec (.ldVxK 5) base = .next t) ∧ (∃ t, exec (.seImm 0 0#8) base = .next t)
      ∧ ∃ t, exec (.ldImm 0 0#8) base = .next t :=
  ⟨⟨_, rfl⟩, ⟨_, rfl⟩, ⟨_, rfl⟩, ⟨_, rfl⟩, ⟨_, rfl⟩, ⟨_, rfl⟩, _, rfl⟩

theorem witness_TimersCountDownOncePerCompletedStep :
    (∃ u, step (at200 0x6005) = .next u) ∧ (∃ u, step (at200 0x00EE) = .fault (.fatal .stackUnderflow u))
      ∧ ∃ t, requestStep (at200 0x5121) = some (t, .unsupported 0x5121#16) :=
  ⟨⟨_, rfl⟩, ⟨_, rfl⟩, _, rfl⟩

theorem witness_SoundEventMarksTheEdge : ∃ t, requestStep ((at200 0x6005).setSound 1#8) = some (t, .ok) := ⟨_, rfl⟩

theorem witness_TimerWriteThenDecrementInOneStep :
    ((at200 0xF515).fault = none ∧ (at200 0xF515).Fetches 0xF515#16 ∧ decodeWord 0xF515#16 = .instr (.ldDtVx 5))
      ∧ ((at200 0xF518).fault = none ∧ (at200 0xF518).Fetches 0xF518#16 ∧ decodeWord 0xF518#16 = .instr (.ldStVx 5))
      ∧ (at200 0xF507).fault = none ∧ (at200 0xF507).Fetches 0xF507#16 ∧ decodeWord 0xF507#16 = .instr (.ldVxDt 5) :=
  ⟨⟨rfl, ⟨by decide, by decide⟩, by decide⟩, ⟨rfl, ⟨by decide, by decide⟩, by decide⟩, rfl, ⟨by decide, by decide⟩, by decide⟩

/-- A state with the invariant, at the largest pc a step can be fetched at, with a store to come. -/
theorem witness_StepKeepsInvariant :
    ((((base.setPc 0xFFE#16).withFetchWord 16 0xF533).setIndex 0xFFD#16).setReg 5 255#8).Inv
      ∧ ∃ t, step ((((base.setPc 0xFFE#16).withFetchWord 16 0xF533).setIndex 0xFFD#16).setReg 5 255#8) = .next t :=
  ⟨⟨by decide, by decide, by decide⟩, _, rfl⟩

theorem witness_DriverKeepsInvariant :
    (Session.start (at200 0x5121)).Inv
      ∧ (runActions [.requestStep, .writeKeys (Vector.replicate 16 true), .skipUnsupported, .clearRedraw, .requestStep]
          (Session.start (at200 0x5121))).isSome = true :=
  ⟨⟨⟨by decide, by decide, by decide⟩, fun _ h => by cases h⟩, by decide⟩

theorem witness_LaunchState :
    (fullImage.font.length = 80 ∧ fullImage.image.length ≤ 3584) ∧ shortFont.font.length ≠ 80
      ∧ 3584 < longImage.image.length :=
  ⟨⟨fullImage_font_length, fullImage_length.le⟩, by decide, by rw [longImage_length]; decide⟩

theorem witness_RestartIsResetAndLaunch : fullImage.font.length = 80 ∧ fullImage.image.length ≤ 3584 :=
  ⟨fullImage_font_length, fullImage_length.le⟩

theorem witness_WriteChangesExactlyOneByte : Memory.wf [(0, 1#8), (4095, 255#8)] ∧ 4095 < 4096 := by decide

theorem witness_FlagRegisterWriters :
    (∃ t, exec (.addReg 15 15) base = .next t) ∧ (∃ t, exec (.ldImm 14 1#8) base = .next t) ∧ ∃ t, exec .cls base = .next t :=
  ⟨⟨_, rfl⟩, ⟨_, rfl⟩, _, rfl⟩

/-- One completed instruction that changes each part. -/
theorem witness_EachPartHasItsWriters :
    (∃ t, exec (.ldI 1#12) base = .next t ∧ t.index ≠ base.index) ∧ (∃ t, exec (.call 0#12) base = .next t ∧ t.stack ≠ base.stack)
      ∧ (∃ t, exec .ret { base with sp := 1 } = .next t ∧ t.sp ≠ 1)
      ∧ (∃ t, exec (.ldDtVx 0) (base.setReg 0 1#8) = .next t ∧ t.delay ≠ base.delay)
      ∧ (∃ t, exec (.ldStVx 0) (base.setReg 0 1#8) = .next t ∧ t.sound ≠ base.sound)
      ∧ (∃ t, exec (.ldB 0) (base.setReg 0 1#8) = .next t ∧ t.mem ≠ base.mem)
      ∧ ∃ t, exec (.drw 0 0 1) (withMem base 0 [0x80#8]) = .next t ∧ t.fb ≠ base.fb ∧ t.redraw ≠ base.redraw :=
  ⟨⟨_, rfl, by decide⟩, ⟨_, rfl, by decide⟩, ⟨_, rfl, by decide⟩, ⟨_, rfl, by decide⟩, ⟨_, rfl, by decide⟩,
    ⟨_, rfl, by decide⟩, _, rfl, by decide, by decide⟩

theorem witness_SoundTimerIsNotRead :
    (∃ t, exec (.ldStVx 0) base = .next t) ∧ ∃ u, exec .ret base = .fault (.fatal .stackUnderflow u) := ⟨⟨_, rfl⟩, _, rfl⟩

/-- Two stacks that differ at SP and above only, with a RET that completes. -/
theorem witness_StaleStackEntriesAreNotRead :
    (∀ k : Fin 16, k.val < ({ base with sp := 1 } : State).sp.val → (base.stack.set 1 5#16)[k] = base.stack[k])
      ∧ ∃ t, exec .ret { base with sp := 1 } = .next t := ⟨by decide, _, rfl⟩

/-- The same with a full stack, where no entry is stale, and with an empty one, where every entry is. -/
theorem witness_StaleStackEntriesAreNotRead_fatal :
    (∃ u, exec (.call 0x300#12) { base with sp := 16 } = .fault (.fatal .stackOverflow u))
      ∧ (∀ k : Fin 16, k.val < base.sp.val → (base.stack.set 0 5#16)[k] = base.stack[k])
      ∧ ∃ u, exec .ret base = .fault (.fatal .stackUnderflow u) := ⟨⟨_, rfl⟩, by decide, _, rfl⟩

theorem witness_CallPushesItsAddress :
    (∃ k : Fin 16, ({ base with sp := 15 } : State).sp.val = k.val) ∧ ({ base with sp := 16 } : State).sp.val = 16 :=
  ⟨⟨15, rfl⟩, rfl⟩

theorem witness_ReturnPopsTheStack :
    (∃ k : Fin 16, ({ base with sp := 16 } : State).sp.val = k.val + 1) ∧ base.sp.val = 0 := ⟨⟨15, rfl⟩, rfl⟩

theorem witness_CallThenReturnResumesAfterTheCall : ∃ t, exec (.call 0x300#12) { base with sp := 15 } = .next t := ⟨_, rfl⟩

theorem witness_JumpToItselfRunsForever :
    (at200 0x1200).fault = none ∧ (at200 0x1200).Fetches 0x1200#16 ∧ decodeWord 0x1200#16 = .instr (.jp 0x200#12)
      ∧ (at200 0x1200).pc.toNat = (0x200#12).toNat :=
  ⟨rfl, ⟨by decide, by decide⟩, by decide, by decide⟩

/-- The clauses of the flag writers for a destination that is not VF. -/
theorem witness_AddSetsCarry : (14 : RegIdx) ≠ 15 := by decide

theorem witness_SubtractionsSetNoBorrow : (0 : RegIdx) ≠ 15 := by decide

theorem witness_LogicIsBitwiseWithoutFlag : 7 < 8 := by decide

theorem witness_RandomIsMasked : 7 < 8 ∧ (0x7F#8).getLsbD 7 = false := by decide

theorem witness_ShiftsPutTheLostBitInTheFlag :
    (1#8 = (base.setReg 15 1#8).reg (if (base.setReg 15 1#8).params.shiftSource = .X then 15 else 2))
      ∧ (128#8 = ({ base.setReg 2 128#8 with params := ⟨.Y, .wrap⟩ } : State).reg
          (if ({ base.setReg 2 128#8 with params := ⟨.Y, .wrap⟩ } : State).params.shiftSource = .X then 15 else 2)) := by decide

theorem witness_AddToIndexWrapsOrFaults :
    (((base.setIndex 0xFF00#16).setReg 1 255#8).index.toNat + ((base.setIndex 0xFF00#16).setReg 1 255#8 |>.reg 1).toNat ≤ 0xFFFF)
      ∧ ((base.setIndex 0xFFFF#16).setReg 1 255#8).params.indexOverflow = .wrap
      ∧ (0xFFFF < ((base.setIndex 0xFF01#16).setReg 1 255#8).index.toNat + ((base.setIndex 0xFF01#16).setReg 1 255#8 |>.reg 1).toNat)
      ∧ ({ (base.setIndex 0xFF01#16).setReg 1 255#8 with params := ⟨.X, .fault⟩ } : State).params.indexOverflow = .fault := by
  decide

theorem witness_BcdStoresThreeDigits :
    base.mem.wf ∧ (base.setIndex 0xFFD#16).index.toNat + 2 < 4096 ∧ 4096 ≤ (base.setIndex 0xFFE#16).index.toNat + 2 := by
  decide

theorem witness_RegisterDumpStoresTheRegisters :
    base.mem.wf ∧ (base.setIndex 0xFF0#16).index.toNat + (15 : RegIdx).val < 4096
      ∧ 4096 ≤ (base.setIndex 0xFF1#16).index.toNat + (15 : RegIdx).val := by decide

theorem witness_RegisterLoadReadsTheRun :
    (base.setIndex 0xFFF#16).index.toNat + (0 : RegIdx).val < 4096
      ∧ 4096 ≤ (base.setIndex 0xFFF#16).index.toNat + (1 : RegIdx).val := by decide

theorem witness_LoadRestoresWhatDumpStored :
    (base.setReg 0 7#8).mem.wf ∧ ∃ t, exec (.ldMemVx 15) (base.setReg 0 7#8) = .next t := ⟨by decide, _, rfl⟩

theorem witness_DrawTogglesTheSpritePixels :
    ((0 : Fin 16).val = 0) ∧ (base.setIndex 0xFFF#16).index.toNat + (1 : Fin 16).val ≤ 4096 := by decide

theorem witness_DrawBeyondMemoryIsFatal :
    0 < (2 : Fin 16).val ∧ 4096 ≤ (base.setIndex 0xFFF#16).index.toNat + (2 : Fin 16).val - 1 := by decide

theorem witness_DrawingTwiceErases :
    ((0 : RegIdx) ≠ 15) ∧ ((1 : RegIdx) ≠ 15) ∧ ∃ t, exec (.drw 0 1 1) (withMem base 0 [0x80#8]) = .next t :=
  ⟨by decide, by decide, _, rfl⟩

theorem witness_KeySkips :
    (∃ k : Fin 16, ((base.setReg 5 15#8).reg 5).toNat = k.val) ∧ 16 ≤ ((base.setReg 5 16#8).reg 5).toNat :=
  ⟨⟨15, by decide⟩, by decide⟩

theorem witness_WaitForKeyTakesTheLeast :
    ((withKeys base [4, 9]).keys[(4 : Fin 16)] = true ∧ ∀ j : Fin 16, j < 4 → (withKeys base [4, 9]).keys[j] = false)
      ∧ ∀ k : Fin 16, base.keys[k] = false := by decide

theorem witness_KeyWaitRunsForever :
    (at200 0xF50A).fault = none ∧ (at200 0xF50A).Fetches 0xF50A#16 ∧ decodeWord 0xF50A#16 = .instr (.ldVxK 5)
      ∧ ∀ k : Fin 16, (at200 0xF50A).keys[k] = false :=
  ⟨rfl, ⟨by decide, by decide⟩, by decide, by decide⟩

/-- The session after a reported word. -/
def reported : Session := { core := at200 0x5121, last := some (.unsupported 0x5121#16) }

theorem witness_DriverSkipPassesTheWord :
    (∃ w, reported.last = some (.unsupported w)) ∧ (∀ w, (Session.start (at200 0x5121)).last ≠ some (.unsupported w))
      ∧ (∃ e, HostAction.requestStep.apply reported = some e)
      ∧ ∃ e, HostAction.requestStep.apply (Session.start (at200 0x6005)) = some e :=
  ⟨⟨_, rfl⟩, nofun, ⟨_, rfl⟩, _, rfl⟩

theorem witness_EverySkipHasItsReport :
    ∃ e f, runActions [.requestStep, .clearRedraw] (Session.start (at200 0x5121)) = some e
      ∧ HostAction.skipUnsupported.apply e = some f := ⟨_, _, rfl, rfl⟩

end Sys2Proof.Tests
end

namespace Sys2Proof.ScopeProofs

/-- Settles O3. The decoder is a computable function of the word alone (R56), so each of the nineteen closed equations is
settled by running it on its word. -/
theorem decodesWordsOfTheSpec : Obligations.DecodesWordsOfTheSpec := by
  unfold Obligations.DecodesWordsOfTheSpec
  decide

end Sys2Proof.ScopeProofs

namespace Sys2Proof.StateProofs

open Sys2Proof.Machine

/-! ## What an execute part that completes leaves -/

section ExecNext

variable {s t : State}

/-- A range-checked effect that completes is that effect, and its run exists or is empty (R38). -/
theorem withRange_next {a k : Nat} {act : State} (h : withRange a k s act = .next t) :
    (k = 0 ∨ a + k ≤ 4096) ∧ t = act := by
  obtain ⟨hrun, e⟩ | ⟨-, e⟩ := withRange_cases a k s act <;> rw [e] at h <;> cases h
  exact ⟨hrun, rfl⟩

/-- A CALL with a free entry `k = SP` pushes its own address there (R75). -/
theorem exec_call_of_free (nnn : Addr12) (k : Fin 16) (hk : s.sp.val = k.val) :
    exec (.call nnn) s = .next { s with
      stack := s.stack.set k s.pc, sp := ⟨k.val + 1, Nat.succ_lt_succ k.isLt⟩, pc := zext16 nnn } := by
  simp only [exec, execCall, push?_of_lt _ k hk]
  rfl

/-- A CALL with a full stack is fatal (R75, R120). -/
theorem exec_call_of_full (nnn : Addr12) (hfull : s.sp.val = 16) :
    exec (.call nnn) s = raiseFatal .stackOverflow s := by
  simp only [exec, execCall, push?_full _ hfull]

/-- A RET with an entry `k = SP - 1` in use resumes two bytes after the address there (R76). -/
theorem exec_ret_of_used (k : Fin 16) (hk : s.sp.val = k.val + 1) :
    exec .ret s = .next { s with sp := ⟨k.val, Nat.lt_succ_of_lt k.isLt⟩, pc := s.stack[k] + 2#16 } := by
  simp only [exec, execRet, pop?_of_pos k hk]
  rfl

/-- A RET with an empty stack is fatal (R76, R120). -/
theorem exec_ret_of_empty (hempty : s.sp.val = 0) : exec .ret s = raiseFatal .stackUnderflow s := by
  simp only [exec, execRet, pop?_empty hempty]

/-- A CALL that completes had a free entry (R75). -/
theorem exec_call_next {nnn : Addr12} (h : exec (.call nnn) s = .next t) :
    ∃ k : Fin 16, s.sp.val = k.val
      ∧ t = { s with stack := s.stack.set k s.pc, sp := ⟨k.val + 1, Nat.succ_lt_succ k.isLt⟩, pc := zext16 nnn } := by
  obtain hfull | ⟨k, hk⟩ := sp_full_or_free s
  · rw [exec_call_of_full nnn hfull] at h; cases h
  · rw [exec_call_of_free nnn k hk] at h; cases h; exact ⟨k, hk, rfl⟩

/-- A RET that completes had an entry in use (R76). -/
theorem exec_ret_next (h : exec .ret s = .next t) :
    ∃ k : Fin 16, s.sp.val = k.val + 1
      ∧ t = { s with sp := ⟨k.val, Nat.lt_succ_of_lt k.isLt⟩, pc := s.stack[k] + 2#16 } := by
  obtain hempty | ⟨k, hk⟩ := sp_empty_or_used s
  · rw [exec_ret_of_empty hempty] at h; cases h
  · rw [exec_ret_of_used k hk] at h; cases h; exact ⟨k, hk, rfl⟩

/-- A SKP that completes is a skip and nothing else (R111). -/
theorem exec_skp_next {x : RegIdx} (h : exec (.skp x) s = .next t) : ∃ c, t = s.skipIf c := by
  simp only [exec, execSkp] at h
  split at h <;> cases h
  exact ⟨_, rfl⟩

/-- A SKNP that completes is a skip and nothing else (R112). -/
theorem exec_sknp_next {x : RegIdx} (h : exec (.sknp x) s = .next t) : ∃ c, t = s.skipIf c := by
  simp only [exec, execSknp] at h
  split at h <;> cases h
  exact ⟨_, rfl⟩

/-- LD Vx, K waits with nothing changed, or writes a key to its register (R113, R114). -/
theorem exec_ldVxK_next {x : RegIdx} (h : exec (.ldVxK x) s = .next t) :
    t = s ∨ ∃ v, t = (s.setReg x v).advance := by
  simp only [exec, execLdVxK] at h
  split at h <;> cases h
  · exact .inl rfl
  · exact .inr ⟨_, rfl⟩

/-- An ADD I, Vx that completes writes I (R99). -/
theorem exec_addI_next {x : RegIdx} (h : exec (.addI x) s = .next t) : ∃ v, t = (s.setIndex v).advance := by
  simp only [exec, execAddI] at h
  split at h <;> cases h
  exact ⟨_, rfl⟩

end ExecNext

/-- What an execute part may write beside pc, one case for each set of parts that some instruction writes; the values
written are left open (R21, R25 to R27, R31, R41). -/
inductive Writes (s : State) : Instr → State → Prop
  | regs {i : Instr} (r : Vector Byte 16) (n : Nat) (p : Word) : Writes s i { s with regs := r, draws := n, pc := p }
  | index {i : Instr} (hi : (∃ nnn, i = .ldI nnn) ∨ ∃ x, i = .addI x ∨ i = .ldF x) (v p : Word) :
      Writes s i { s with index := v, pc := p }
  | call (nnn : Addr12) (st : Vector Word 16) (k : Fin 17) (p : Word) :
      Writes s (.call nnn) { s with stack := st, sp := k, pc := p }
  | ret (k : Fin 17) (p : Word) : Writes s .ret { s with sp := k, pc := p }
  | delay (x : RegIdx) (v : Byte) (p : Word) : Writes s (.ldDtVx x) { s with delay := v, pc := p }
  | sound (x : RegIdx) (v : Byte) (p : Word) : Writes s (.ldStVx x) { s with sound := v, pc := p }
  | mem {i : Instr} (hi : ∃ x, i = .ldB x ∨ i = .ldMemVx x) (m : Memory) (p : Word) :
      Writes s i { s with mem := m, pc := p }
  | cls (fb : Framebuffer) (p : Word) : Writes s .cls { s with fb := fb, pc := p }
  | drw (x y : RegIdx) (n : Fin 16) (r : Vector Byte 16) (fb : Framebuffer) (b : Bool) (p : Word) :
      Writes s (.drw x y n) { s with regs := r, fb := fb, redraw := s.redraw || b, pc := p }

/-- Every execute part that completes writes as `Writes` says of its instruction. -/
theorem writes_of_exec {i : Instr} {s t : State} (h : exec i s = .next t) : Writes s i t := by
  cases i with
  | cls => cases h; exact .cls _ _
  | ret => obtain ⟨k, -, rfl⟩ := exec_ret_next h; exact .ret _ _
  | call nnn => obtain ⟨k, -, rfl⟩ := exec_call_next h; exact .call nnn _ _ _
  | ldI nnn => cases h; exact .index (.inl ⟨nnn, rfl⟩) _ _
  | addI x => obtain ⟨v, rfl⟩ := exec_addI_next h; exact .index (.inr ⟨x, .inl rfl⟩) _ _
  | ldF x => cases h; exact .index (.inr ⟨x, .inr rfl⟩) _ _
  | ldDtVx x => cases h; exact .delay x _ _
  | ldStVx x => cases h; exact .sound x _ _
  | ldB x => obtain ⟨-, rfl⟩ := withRange_next h; exact .mem ⟨x, .inl rfl⟩ _ _
  | ldMemVx x => obtain ⟨-, rfl⟩ := withRange_next h; exact .mem ⟨x, .inr rfl⟩ _ _
  | ldVxMem x => obtain ⟨-, rfl⟩ := withRange_next h; exact .regs _ _ _
  | drw x y n => obtain ⟨-, rfl⟩ := withRange_next h; exact .drw x y n _ _ _ _
  | skp x => obtain ⟨c, rfl⟩ := exec_skp_next h; exact .regs _ _ _
  | sknp x => obtain ⟨c, rfl⟩ := exec_sknp_next h; exact .regs _ _ _
  | ldVxK x => obtain rfl | ⟨v, rfl⟩ := exec_ldVxK_next h <;> exact .regs _ _ _
  | _ => cases h; exact .regs _ _ _

/-- Settles O23, from the writes of each kind of instruction. -/
theorem eachPartHasItsWriters : Obligations.EachPartHasItsWriters := by
  unfold Obligations.EachPartHasItsWriters
  intro i s t h
  cases writes_of_exec h with
  | regs r n p => simp
  | index hi v p => simpa using fun _ => hi
  | call nnn st k p => simp
  | ret k p => simp
  | delay x v p => simp
  | sound x v p => simp
  | mem hi m p => simpa using fun _ => hi
  | cls fb p => simp
  | drw x y n r fb b p => cases b <;> simp

/-- A flag is 0 or 1. -/
theorem flagByte_eq_zero_or_one (f : Bool) : flagByte f = 0#8 ∨ flagByte f = 1#8 := by
  cases f
  · exact .inl rfl
  · exact .inr rfl

/-- A result with its flag leaves 0 or 1 in VF, whatever its destination (R16, R83). -/
theorem setRegFlag_flag (s : State) (x : RegIdx) (v : Byte) (f : Bool) :
    (s.setRegFlag x v f).reg 15 = 0#8 ∨ (s.setRegFlag x v f).reg 15 = 1#8 := by
  simpa using flagByte_eq_zero_or_one f

/-- A write to another register leaves VF. -/
theorem setReg_flag_of_ne (s : State) {x : RegIdx} (v : Byte) (hx : x ≠ 15) : (s.setReg x v).reg 15 = s.reg 15 := by
  rw [setReg_reg, if_neg hx.symm]

/-- A load of registers below 15 leaves VF (R102). -/
theorem loadRegs_flag_of_ne (s : State) (a : Nat) {x : RegIdx} (hx : x ≠ 15) :
    (loadRegs s a x)[(15 : RegIdx)] = s.reg 15 := by
  rw [loadRegs_get, if_neg fun h => hx (le_antisymm (Fin.le_last x) h)]

/-- Settles O22, by the instruction: the six with a flag write it last, the others write their destination alone. -/
theorem flagRegisterWriters : Obligations.FlagRegisterWriters := by
  unfold Obligations.FlagRegisterWriters
  intro i s t h
  cases i with
  | addReg | subReg | subnReg | shr | shl => cases h; exact setRegFlag_flag ..
  | drw x y n =>
    obtain ⟨-, rfl⟩ := withRange_next h
    simpa [drawn, flagReg] using flagByte_eq_zero_or_one _
  | ldImm | addImm | ldReg | orReg | andReg | xorReg | ldVxDt => cases h; exact setReg_flag_of_ne s _
  | rnd x nn => cases h; exact setReg_flag_of_ne s.countDraw _
  | ldVxK x =>
    intro hx
    obtain rfl | ⟨v, rfl⟩ := exec_ldVxK_next h
    · rfl
    · exact setReg_flag_of_ne s v hx
  | ldVxMem x => obtain ⟨-, rfl⟩ := withRange_next h; exact loadRegs_flag_of_ne s _
  | ret => obtain ⟨k, -, rfl⟩ := exec_ret_next h; rfl
  | call => obtain ⟨k, -, rfl⟩ := exec_call_next h; rfl
  | skp => obtain ⟨c, rfl⟩ := exec_skp_next h; rfl
  | sknp => obtain ⟨c, rfl⟩ := exec_sknp_next h; rfl
  | addI => obtain ⟨v, rfl⟩ := exec_addI_next h; rfl
  | ldB | ldMemVx => obtain ⟨-, rfl⟩ := withRange_next h; rfl
  | _ => cases h; rfl

/-! ## The invariant -/

/-- The invariant at reset: memory lists nothing, pc is ENTRY and every stack entry is 0 (R24, R34, R35). -/
theorem reset_inv : State.reset.Inv :=
  ⟨⟨.nil, nofun⟩, by decide, by decide⟩

/-- Settles O16: before the first request the driver has no outcome that could be false. -/
theorem invariantAtReset : Obligations.InvariantAtReset := by
  unfold Obligations.InvariantAtReset
  exact ⟨reset_inv, reset_inv, nofun⟩

/-- Settles O19. Registers, stack and keys are replicated values, memory lists no cell, the framebuffer is blank. -/
theorem resetValues : Obligations.ResetValues := by
  unfold Obligations.ResetValues
  refine ⟨fun x => ?_, rfl, rfl, fun k => ?_, rfl, rfl, rfl, rfl, fun _ => rfl, blank_pixel, rfl, fun k => ?_, rfl⟩
  · simp [State.reg, State.reset]
  · simp [State.reset]
  · simp [State.reset]

/-- The ways an instruction rule writes pc (R66): the key wait leaves it; the default; a taken skip; JP and CALL; JP V0;
RET. -/
inductive PcWrite (s : State) : Word → Prop
  | stay : PcWrite s s.pc
  | next : PcWrite s (s.pc + 2#16)
  | skip : PcWrite s (s.pc + 4#16)
  | jump (nnn : Addr12) : PcWrite s (zext16 nnn)
  | offset (nnn : Addr12) : PcWrite s (offsetTarget s nnn)
  | ret (k : Fin 16) : PcWrite s (s.stack[k] + 2#16)

/-- A skip instruction takes the skip or the default (R77). -/
theorem pcWrite_skipIf (s : State) (c : Bool) : PcWrite s (s.skipIf c).pc := by
  cases c
  · exact .next
  · exact .skip

/-- Every execute part that completes writes pc in one of these ways (R66). -/
theorem pcWrite_of_exec {i : Instr} {s t : State} (h : exec i s = .next t) : PcWrite s t.pc := by
  cases i with
  | jp nnn => cases h; exact .jump nnn
  | call nnn => obtain ⟨k, -, rfl⟩ := exec_call_next h; exact .jump nnn
  | jpV0 nnn => cases h; exact .offset nnn
  | ret => obtain ⟨k, -, rfl⟩ := exec_ret_next h; exact .ret k
  | seImm | sneImm | seReg | sneReg => cases h; exact pcWrite_skipIf s _
  | skp => obtain ⟨c, rfl⟩ := exec_skp_next h; exact pcWrite_skipIf s c
  | sknp => obtain ⟨c, rfl⟩ := exec_sknp_next h; exact pcWrite_skipIf s c
  | ldVxK =>
    obtain rfl | ⟨v, rfl⟩ := exec_ldVxK_next h
    · exact .stay
    · exact .next
  | addI => obtain ⟨v, rfl⟩ := exec_addI_next h; exact .next
  | drw | ldB | ldMemVx | ldVxMem => obtain ⟨-, rfl⟩ := withRange_next h; exact .next
  | _ => cases h; exact .next

/-- A sum of words is at most the sum of their bounds, whether it wraps or not. -/
theorem toNat_add_le {a d : Word} {n : Nat} (ha : a.toNat ≤ n) : (a + d).toNat ≤ n + d.toNat := by
  rw [BitVec.toNat_add]
  exact (Nat.mod_le _ _).trans (Nat.add_le_add_right ha _)

/-- The bound of R24 on pc: from a pc and return addresses that were fetched, pc goes to at most 0x10FE, the largest
target of JP V0. -/
theorem pcWrite_le {s : State} {p : Word} (h : PcWrite s p) (hpc : s.pc.toNat ≤ 0xFFE)
    (hstack : ∀ k : Fin 16, s.stack[k].toNat ≤ 0xFFE) : p.toNat ≤ 0x10FE := by
  cases h with
  | stay => omega
  | next => exact (toNat_add_le hpc).trans (by decide)
  | skip => exact (toNat_add_le hpc).trans (by decide)
  | jump nnn =>
    have := nnn.isLt
    simp only [zext16, BitVec.toNat_setWidth]
    omega
  | offset nnn =>
    have := nnn.isLt
    have := (s.reg 0).isLt
    simp only [offsetTarget, BitVec.toNat_ofNat]
    omega
  | ret k => exact (toNat_add_le (hstack k)).trans (by decide)

/-- Only CALL writes the stack, and what it pushes is the address it was fetched at (R24, R75). -/
theorem exec_stack_le {i : Instr} {s t : State} (h : exec i s = .next t) (hpc : s.pc.toNat ≤ 0xFFE)
    (hstack : ∀ k : Fin 16, s.stack[k].toNat ≤ 0xFFE) (j : Fin 16) : t.stack[j].toNat ≤ 0xFFE := by
  obtain ⟨-, hwriter, -⟩ := eachPartHasItsWriters i s t h
  by_cases e : t.stack = s.stack
  · rw [e]; exact hstack j
  · obtain ⟨nnn, rfl⟩ := hwriter e
    obtain ⟨k, -, rfl⟩ := exec_call_next h
    simp only [Fin.getElem_fin, Vector.getElem_set]
    split
    · exact hpc
    · exact hstack j

/-- Only LD B and LD [I] write memory, each a run whose range was checked (R36, R41). -/
theorem exec_mem_wf {i : Instr} {s t : State} (h : exec i s = .next t) (hmem : s.mem.wf) : t.mem.wf := by
  obtain ⟨-, -, -, -, -, hwriter, -⟩ := eachPartHasItsWriters i s t h
  by_cases e : t.mem = s.mem
  · rwa [e]
  · obtain ⟨x, rfl | rfl⟩ := hwriter e
    · obtain ⟨hrun, rfl⟩ := withRange_next h
      have hlen : (bcdDigits (s.reg x)).length = 3 := rfl
      exact writeRun_wf hmem (by omega)
    · obtain ⟨hrun, rfl⟩ := withRange_next h
      have hlen := regsUpTo_length s x
      exact writeRun_wf hmem (by omega)

/-- Settles O17: the step fetched its instruction, so pc was at most 0xFFE; the execute part keeps each of the three parts
and the timer phase touches none of them. -/
theorem stepKeepsInvariant : Obligations.StepKeepsInvariant := by
  unfold Obligations.StepKeepsInvariant
  rintro s u ⟨hmem, -, hstack⟩ h
  obtain ⟨w, i, t, -, ⟨hfetched, -⟩, -, he, rfl⟩ := step_next h
  have hpc : s.pc.toNat ≤ 0xFFE := by omega
  have ht : t.Inv := ⟨exec_mem_wf he hmem, pcWrite_le (pcWrite_of_exec he) hpc hstack, exec_stack_le he hpc hstack⟩
  exact ht

/-! ## The driver's actions -/

/-- A faulted CORE has no step (R62, R119). -/
theorem step_of_faulted {s : State} {reason : FatalReason} (h : s.fault = some reason) :
    step s = .fault (.noStep reason) := by
  simp [step, h]

/-- A request of a faulted CORE has no result (R62, R119). -/
theorem requestStep_of_faulted {s : State} {reason : FatalReason} (h : s.fault = some reason) :
    requestStep s = none := by
  simp [requestStep, step_of_faulted h]

/-- An action other than a restart keeps a recorded fault (R119, R137). -/
theorem apply_keeps_fault {a : HostAction} {d e : Session} {reason : FatalReason} (ha : ∀ l, a ≠ .restart l)
    (hd : d.core.fault = some reason) (h : a.apply d = some e) : e.core.fault = some reason := by
  obtain ⟨-, t, report, hr, -⟩ | ⟨-, w, -, rfl⟩ | ⟨l, t, hl, -⟩ | ⟨keys, -, rfl⟩ | ⟨-, rfl⟩ := apply_cases h
  · rw [requestStep_of_faulted hd] at hr; cases hr
  · exact hd
  · exact absurd hl (ha l)
  · exact hd
  · exact hd

/-- Settles O9, by induction on the actions. -/
theorem faultIsStickyUntilRestart : Obligations.FaultIsStickyUntilRestart := by
  unfold Obligations.FaultIsStickyUntilRestart
  intro d reason hd
  refine ⟨step_of_faulted hd, by simp [Session.request, requestStep_of_faulted hd], fun as e has h => ?_⟩
  induction as generalizing d with
  | nil => cases h; exact hd
  | cons a as ih =>
    rw [runActions_cons, Option.bind_eq_some_iff] at h
    obtain ⟨m, hm, hrun⟩ := h
    have ha (l : LaunchData) : a ≠ .restart l := fun e => has l (e ▸ List.mem_cons_self)
    exact ih m (apply_keeps_fault ha hd hm) (fun l hl => has l (List.mem_cons_of_mem _ hl)) hrun

/-- Whether a step is refused depends on FAULT, pc and memory alone (R57, R124). -/
theorem step_refused_congr {s t : State} {u : Word} (hf : t.fault = s.fault) (hpc : t.pc = s.pc) (hmem : t.mem = s.mem)
    (h : step s = .refused (.unsupported u)) : step t = .refused (.unsupported u) := by
  rw [step_refused_iff] at h ⊢
  unfold State.Fetches at h ⊢
  rwa [hf, hpc, hmem]

/-- What an outcome says of a CORE depends on FAULT, pc, memory and the sound event alone. -/
theorem trueOf_congr {report : StepReport} {s t : State} (hf : t.fault = s.fault) (hpc : t.pc = s.pc)
    (hmem : t.mem = s.mem) (hse : t.soundEvent = s.soundEvent) (h : report.TrueOf s) : report.TrueOf t := by
  cases report with
  | ok => exact hf.trans h
  | unsupported w => exact ⟨step_refused_congr hf hpc hmem h.1, hse.trans h.2⟩
  | fatal reason => exact ⟨hf.trans h.1, hse.trans h.2⟩

/-- The memory of a well-formed launch is canonical: font and image end inside memory (R140). -/
theorem launchMemory_wf {l : LaunchData} (h : l.wellFormed = true) : (launchMemory l).wf := by
  simp only [LaunchData.wellFormed, LaunchData.fontOk, LaunchData.imageOk, Bool.and_eq_true, beq_iff_eq,
    decide_eq_true_eq] at h
  obtain ⟨hfont, himage⟩ : l.font.length = 80 ∧ l.image.length ≤ 3584 := h
  have hempty : Memory.wf [] := ⟨.nil, nofun⟩
  exact writeRun_wf (writeRun_wf hempty (by omega)) (show 0x200 + l.image.length ≤ 4096 by omega)

/-- A launch leaves a state with the invariant (R24, R140). -/
theorem launch_inv {p : Params} {l : LaunchData} {t : State} (h : launch p l = some t) : t.Inv := by
  simp only [launch] at h
  split at h
  · cases h
    obtain ⟨-, hpc, hstack⟩ := reset_inv
    exact ⟨launchMemory_wf ‹_›, hpc, hstack⟩
  · cases h

/-- A requested step keeps the invariant and reports what is true of the state it leaves (R116 to R118). -/
theorem requestStep_inv {s t : State} {report : StepReport} (hs : s.Inv) (h : requestStep s = some (t, report)) :
    t.Inv ∧ report.TrueOf t := by
  obtain ⟨hstep, rfl⟩ | ⟨reason, hstep, rfl⟩ | ⟨w, hstep, rfl, rfl⟩ := requestStep_cases h
  · refine ⟨stepKeepsInvariant s t hs hstep, ?_⟩
    obtain ⟨w, i, t', hf, -, -, he, rfl⟩ := step_next hstep
    obtain ⟨-, -, -, -, -, -, -, -, -, hfault, -⟩ := eachPartHasItsWriters i s t' he
    exact hfault.trans hf
  · obtain ⟨-, rfl⟩ := step_fatal hstep
    exact ⟨hs, rfl, rfl⟩
  · exact ⟨hs, step_refused_congr (s := s) rfl rfl rfl hstep, rfl⟩

/-- The skip of an unsupported word keeps the invariant: the word was fetched, so pc was at most 0xFFE (R24, R137). -/
theorem advance_inv_of_refused {s : State} {w : Word} (hs : s.Inv) (h : step s = .refused (.unsupported w)) :
    s.advance.Inv := by
  obtain ⟨hmem, -, hstack⟩ := hs
  obtain ⟨-, v, ⟨hfetched, -⟩, -⟩ := step_refused_iff.1 h
  have hpc : s.pc.toNat ≤ 0xFFE := by omega
  exact ⟨hmem, (toNat_add_le hpc).trans (by decide), hstack⟩

/-- One allowed action keeps the invariant of a CORE under its driver (R137). -/
theorem apply_inv {a : HostAction} {d e : Session} (hd : d.Inv) (h : a.apply d = some e) : e.Inv := by
  obtain ⟨hcore, hlast⟩ := hd
  obtain ⟨-, t, report, hr, rfl⟩ | ⟨-, w, hw, rfl⟩ | ⟨l, t, -, hl, rfl⟩ | ⟨keys, -, rfl⟩ | ⟨-, rfl⟩ := apply_cases h
  · obtain ⟨ht, htrue⟩ := requestStep_inv hcore hr
    exact ⟨ht, fun r hr => by cases hr; exact htrue⟩
  · obtain ⟨hrefused, -⟩ := hlast _ hw
    exact ⟨advance_inv_of_refused hcore hrefused, nofun⟩
  · have ht : t.Inv := launch_inv hl
    exact ⟨ht, nofun⟩
  · exact ⟨hcore, fun r hr => trueOf_congr (s := d.core) rfl rfl rfl rfl (hlast r hr)⟩
  · exact ⟨hcore, fun r hr => trueOf_congr (s := d.core) rfl rfl rfl rfl (hlast r hr)⟩

/-- Settles O18: every allowed action keeps the session's invariant, so every run of actions does. -/
theorem driverKeepsInvariant : Obligations.DriverKeepsInvariant := by
  unfold Obligations.DriverKeepsInvariant
  intro as d e hd h
  exact runActions_keeps (fun _ _ _ => apply_inv) hd h

/-! ## What is not read: the sound timer and stale stack entries -/

/-- The state with another stack and another sound timer. -/
def withStackSound (st : Vector Word 16) (v : Byte) (s : State) : State := { s with stack := st, sound := v }

/-- An outcome with the state it leaves, completed or fatal, changed by `f`. -/
def mapOutcome (f : State → State) : Result → Result
  | .next t => .next (f t)
  | .fault (.fatal reason u) => .fault (.fatal reason (f u))
  | .fault (.noStep reason) => .fault (.noStep reason)
  | .refused r => .refused r

section Unread

variable {st : Vector Word 16} {v : Byte} {s t u : State} {i : Instr}

@[simp] theorem withStackSound_reg (x : RegIdx) : (withStackSound st v s).reg x = s.reg x := rfl

/-- A range check reads neither the stack nor ST. -/
theorem withRange_withStackSound (a k : Nat) (s act : State) :
    withRange a k (withStackSound st v s) (withStackSound st v act)
      = mapOutcome (withStackSound st v) (withRange a k s act) := by
  unfold withRange
  split <;> rfl

/-- An instruction other than CALL, RET and LD ST, Vx neither reads nor writes the stack and ST: with others it gives the
same outcome, with those others in it (R25, R27). -/
theorem exec_withStackSound (hcall : ∀ nnn, i ≠ .call nnn) (hret : i ≠ .ret) (hst : ∀ x, i ≠ .ldStVx x) :
    exec i (withStackSound st v s) = mapOutcome (withStackSound st v) (exec i s) := by
  cases i with
  | call nnn => exact absurd rfl (hcall nnn)
  | ret => exact absurd rfl hret
  | ldStVx x => exact absurd rfl (hst x)
  | drw x y n => exact withRange_withStackSound _ _ s (drawn x y n s).advance
  | ldB x => exact withRange_withStackSound _ _ s (s.setMem _).advance
  | ldMemVx x => exact withRange_withStackSound _ _ s (s.setMem _).advance
  | ldVxMem x => exact withRange_withStackSound _ _ s (State.advance { s with regs := _ })
  | skp x =>
    simp only [exec, execSkp, withStackSound_reg]
    split <;> rfl
  | sknp x =>
    simp only [exec, execSknp, withStackSound_reg]
    split <;> rfl
  | ldVxK x =>
    have hkey : leastKeyHeld (withStackSound st v s) = leastKeyHeld s := rfl
    simp only [exec, execLdVxK, hkey]
    split <;> rfl
  | addI x =>
    have hsum : indexSum (withStackSound st v s) x = indexSum s x := rfl
    have hparams : (withStackSound st v s).params = s.params := rfl
    simp only [exec, execAddI, hsum, hparams]
    split <;> rfl
  | _ => rfl

/-- Stacks that agree below an entry agree up to it after one push there (R26). -/
theorem set_agrees_below_succ {st st₀ : Vector Word 16} {k : Fin 16} (w : Word)
    (hagree : ∀ j : Fin 16, j.val < k.val → st[j] = st₀[j]) (j : Fin 16) (hj : j.val < k.val + 1) :
    (st.set k w)[j] = (st₀.set k w)[j] := by
  by_cases hjk : k.val = j.val
  · simp [hjk]
  · have hold : st[j] = st₀[j] := hagree j (by omega)
    simpa [Vector.getElem_set, hjk] using hold

/-- A completed execute part completes with other stale stack entries and another ST too, and the states left differ only
in stale entries and ST; a stack or an ST that was not replaced is not replaced in the state left (R25, R27). -/
theorem exec_withStackSound_next (hagree : ∀ k : Fin 16, k.val < s.sp.val → st[k] = s.stack[k])
    (h : exec i s = .next t) :
    ∃ st' v', exec i (withStackSound st v s) = .next (withStackSound st' v' t)
      ∧ (∀ k : Fin 16, k.val < t.sp.val → st'[k] = t.stack[k])
      ∧ (st = s.stack → st' = t.stack) ∧ (v = s.sound → v' = t.sound) := by
  by_cases hst : ∃ x, i = .ldStVx x
  · obtain ⟨x, rfl⟩ := hst
    cases h
    exact ⟨st, s.reg x, rfl, hagree, id, fun _ => rfl⟩
  by_cases hcall : ∃ nnn, i = .call nnn
  · obtain ⟨nnn, rfl⟩ := hcall
    obtain ⟨k, hk, rfl⟩ := exec_call_next h
    have hcall' := exec_call_of_free (s := withStackSound st v s) nnn k hk
    have hbelow := set_agrees_below_succ s.pc (hk ▸ hagree)
    exact ⟨st.set k s.pc, v, hcall', hbelow, fun e => by rw [e], id⟩
  by_cases hret : i = .ret
  · subst hret
    obtain ⟨k, hk, rfl⟩ := exec_ret_next h
    have hret' := exec_ret_of_used (s := withStackSound st v s) k hk
    have hpop : st[k] = s.stack[k] := hagree k (by omega)
    refine ⟨st, v, ?_, fun j hj => hagree j (by have : j.val < k.val := hj; omega), id, id⟩
    rw [hret', ← hpop]
    rfl
  obtain ⟨-, hstack, hsp, -, hsound, -⟩ := eachPartHasItsWriters i s t h
  have estack : t.stack = s.stack := by_contra fun e => hcall (hstack e)
  have esp : t.sp = s.sp := by_contra fun e => (hsp e).elim hret hcall
  have esound : t.sound = s.sound := by_contra fun e => hst (hsound e)
  refine ⟨st, v, ?_, by rwa [esp, estack], by rw [estack]; exact id, by rw [esound]; exact id⟩
  rw [exec_withStackSound (fun nnn e => hcall ⟨nnn, e⟩) hret (fun x e => hst ⟨x, e⟩), h]
  rfl

/-- A fatal execute part is fatal with the same reason for any stack and ST (R25, R27). -/
theorem exec_withStackSound_fatal {reason : FatalReason} (h : exec i s = .fault (.fatal reason u)) :
    exec i (withStackSound st v s) = .fault (.fatal reason (withStackSound st v u)) := by
  cases i with
  | ldStVx x => cases h
  | call nnn =>
    obtain hfull | ⟨k, hk⟩ := sp_full_or_free s
    · rw [exec_call_of_full nnn hfull] at h; cases h
      exact exec_call_of_full nnn hfull
    · rw [exec_call_of_free nnn k hk] at h; cases h
  | ret =>
    obtain hempty | ⟨k, hk⟩ := sp_empty_or_used s
    · rw [exec_ret_of_empty hempty] at h; cases h
      exact exec_ret_of_empty hempty
    · rw [exec_ret_of_used k hk] at h; cases h
  | _ => exact (exec_withStackSound (by simp) (by simp) (by simp)).trans (congrArg (mapOutcome _) h)

end Unread

/-- Settles O24: ST is replaced and the stack is not. -/
theorem soundTimerIsNotRead : Obligations.SoundTimerIsNotRead := by
  unfold Obligations.SoundTimerIsNotRead
  refine fun i s v => ⟨fun t h => ?_, fun reason u h => ?_⟩
  · obtain ⟨st', v', h', -, hstack, -⟩ := exec_withStackSound_next (st := s.stack) (v := v) (fun _ _ => rfl) h
    obtain rfl := hstack rfl
    exact ⟨_, h', rfl⟩
  · obtain ⟨r, e⟩ := exec_fault h
    cases e
    exact exec_withStackSound_fatal (st := s.stack) h

/-- Settles O25: the stack is replaced and ST is not. -/
theorem staleStackEntriesAreNotRead : Obligations.StaleStackEntriesAreNotRead := by
  unfold Obligations.StaleStackEntriesAreNotRead
  refine fun i s st hagree => ⟨fun t h => ?_, fun reason u h => ?_⟩
  · obtain ⟨st', v', h', hagree', -, hsound⟩ := exec_withStackSound_next (v := s.sound) hagree h
    obtain rfl := hsound rfl
    exact ⟨_, h', rfl, hagree'⟩
  · obtain ⟨r, e⟩ := exec_fault h
    cases e
    exact exec_withStackSound_fatal (v := s.sound) h

end Sys2Proof.StateProofs

namespace Sys2Proof.MemoryProofs

open Sys2Proof.Machine

/-! ## The fetch -/

/-- An unfaulted step whose two instruction bytes do not both exist is fatal at the lowest address that does not (R40,
R64). -/
theorem step_of_fetch_beyond {s : State} (hf : s.fault = none) (hpc : 4096 ≤ s.pc.toNat + 1) :
    step s = raiseFatal (.memoryOutOfRange (max s.pc.toNat 4096)) s := by
  obtain ⟨reason, hfaulted, -⟩ | ⟨-, -, h⟩ | ⟨w, u, -, ⟨hfetched, -⟩, -⟩ | ⟨w, i, -, ⟨hfetched, -⟩, -⟩ := step_cases s
  · rw [hf] at hfaulted; cases hfaulted
  · exact h
  · omega
  · omega

/-- Settles O7, from the two cases of the fetch. -/
theorem fetchReadsTwoBytesOrIsFatal : Obligations.FetchReadsTwoBytesOrIsFatal := by
  unfold Obligations.FetchReadsTwoBytesOrIsFatal
  refine fun s => ⟨fun hpc => ?_, fun hf hpc => ?_, fun hf hpc => ?_⟩
  · obtain ⟨w, ⟨-, hw⟩, hfetch⟩ | ⟨hbeyond, -⟩ := fetch_cases s
    · exact ⟨w, hfetch, hw ▸ append_toNat _ _⟩
    · omega
  · have hmax : max s.pc.toNat 4096 = 0x1000 := by omega
    exact ⟨_, hmax ▸ step_of_fetch_beyond hf (by omega)⟩
  · have hmax : max s.pc.toNat 4096 = s.pc.toNat := by omega
    have hstep := step_of_fetch_beyond hf (by omega)
    rw [hmax] at hstep
    exact ⟨_, hstep⟩

/-! ## Memory and the launch -/

/-- Settles O21, from the two laws of a write. -/
theorem writeChangesExactlyOneByte : Obligations.WriteChangesExactlyOneByte := by
  unfold Obligations.WriteChangesExactlyOneByte
  intro m a v hwf ha
  exact ⟨write_wf v hwf ha, fun b => read_write a v b hwf.1⟩

/-- A launch has a meaning when the font has its 80 bytes and the image fits (R140, D27). -/
theorem wellFormed_iff (l : LaunchData) : l.wellFormed = true ↔ l.font.length = 80 ∧ l.image.length ≤ 3584 := by
  simp [LaunchData.wellFormed, LaunchData.fontOk, LaunchData.imageOk]

/-- The memory map of a launch: the font below 80, the image from ENTRY, zero elsewhere (R45, R140). -/
theorem launchMemory_read {l : LaunchData} (hfont : l.font.length = 80) (a : Nat) :
    (launchMemory l).read a =
      if a < 80 then l.font.getD a 0#8 else if 0x200 ≤ a then l.image.getD (a - 0x200) 0#8 else 0#8 := by
  have hempty : Memory.wf [] := ⟨.nil, nofun⟩
  have hentry : Config.entry = 0x200 := rfl
  obtain ⟨hsorted, -⟩ : (Memory.writeRun [] 0 l.font).wf := writeRun_wf hempty (by omega)
  rw [launchMemory, read_writeRun _ _ _ hsorted, read_writeRun _ _ _ hempty.1, hfont, hentry]
  by_cases hlow : a < 80
  · rw [if_neg (by omega), if_pos (by omega), if_pos hlow, Nat.sub_zero]
  rw [if_neg (show ¬(0 ≤ a ∧ a < 0 + 80) by omega), if_neg hlow]
  by_cases himage : 0x200 ≤ a
  · rw [if_pos himage]
    split
    · rfl
    · rw [List.getD_eq_default _ _ (by omega)]; rfl
  · rw [if_neg (by omega), if_neg himage]; rfl

/-- Replaced memory and parameters are the only parts changed. -/
theorem onlyChanges_mem_params (s : State) (m : Memory) (p : Params) :
    OnlyChanges [] [.mem, .params] s { s with mem := m, params := p } := by
  apply onlyChanges_of <;> simp [State.reg]

/-- Settles O20: well-formed launch data gives the reset state with the loaded memory and the parameters, any other none. -/
theorem launchState : Obligations.LaunchState := by
  unfold Obligations.LaunchState
  refine fun p l => ⟨fun hfont himage => ?_, fun hbad => ?_⟩
  · have hlaunch : launch p l = some { State.reset with mem := launchMemory l, params := p } :=
      if_pos ((wellFormed_iff l).2 ⟨hfont, himage⟩)
    exact ⟨_, hlaunch, rfl, rfl, onlyChanges_mem_params _ _ _, launchMemory_read hfont⟩
  · exact if_neg fun hwf => by have := (wellFormed_iff l).1 hwf; omega

/-! ## The instructions that reach memory through I -/

/-- A number written as a pattern of format X is the word of the format (R53). -/
theorem ofNat_encodeX (op : BitVec 4) (x : RegIdx) (sub : Byte) :
    BitVec.ofNat 16 (op.toNat * 4096 + x.val * 256 + sub.toNat) = encodeX op x sub :=
  ofNat_encodeXNN op x sub

/-- A pattern of family F is decoded by its sub-operation byte (R56). -/
theorem decodeWord_familyF (x : RegIdx) (sub : Byte) :
    decodeWord (BitVec.ofNat 16 (0xF000 + sub.toNat + x.val * 256)) = decodeFamilyF (encodeX 0xF#4 x sub) := by
  have hpattern : 0xF000 + sub.toNat + x.val * 256 = (0xF#4).toNat * 4096 + x.val * 256 + sub.toNat := by
    simp only [BitVec.toNat_ofNat]; omega
  rw [hpattern, ofNat_encodeX, decodeWord, opField_encodeX]
  rfl

/-- The word Fx55 is LD [I], Vx (R55). -/
theorem isWordOf_ldMemVx (x : RegIdx) : IsWordOf (0xF055 + x.val * 256) (.ldMemVx x) :=
  (decodeWord_familyF x 0x55#8).trans (by simp [decodeFamilyF])

/-- The word Fx65 is LD Vx, [I] (R55). -/
theorem isWordOf_ldVxMem (x : RegIdx) : IsWordOf (0xF065 + x.val * 256) (.ldVxMem x) :=
  (decodeWord_familyF x 0x65#8).trans (by simp [decodeFamilyF])

/-- An instruction that stores to memory and advances changes no other part. -/
theorem onlyChanges_setMem_advance (s : State) (m : Memory) : OnlyChanges [] [.mem] s (s.setMem m).advance := by
  apply onlyChanges_of <;> simp

/-- An instruction that replaces registers and advances changes no part beside them. -/
theorem same_regs_advance (p : Part) (s : State) (r : Vector Byte 16) :
    p.same s (State.advance { s with regs := r }) := by
  have hframe : OnlyChanges (List.finRange 16) [] s (State.advance { s with regs := r }) := by
    apply onlyChanges_of <;> simp
  exact hframe.2 p List.not_mem_nil

/-- The bytes that a dump of `V[0]` to `V[x]` leaves: the registers in the run, the old bytes outside it (R101). -/
theorem read_writeRun_regsUpTo {m : Memory} (hm : m.wf) (a : Nat) (s : State) (x : RegIdx) :
    (∀ k : RegIdx, k ≤ x → (m.writeRun a (regsUpTo s x)).read (a + k.val) = s.reg k)
      ∧ ∀ b, b < a ∨ a + x.val < b → (m.writeRun a (regsUpTo s x)).read b = m.read b := by
  refine ⟨fun k hk => ?_, fun b hb => ?_⟩ <;> rw [read_writeRun _ _ _ hm.1, regsUpTo_length]
  · have hle : k.val ≤ x.val := hk
    rw [if_pos (by omega), Nat.add_sub_cancel_left, regsUpTo_getD s x k hk]
  · rw [if_neg (by omega)]

/-- Settles O44: the range check decides between the stored run and the fatal outcome. -/
theorem registerDumpStoresTheRegisters : Obligations.RegisterDumpStoresTheRegisters := by
  unfold Obligations.RegisterDumpStoresTheRegisters
  refine fun x s hwf => ⟨isWordOf_ldMemVx x, fun hrun => ?_, fun hbeyond => ?_⟩
  · exact ⟨_, withRange_ok _ _ (.inr (by omega)), rfl, onlyChanges_setMem_advance _ _,
      read_writeRun_regsUpTo hwf _ s x⟩
  · exact ⟨_, withRange_fatal _ _ (by omega) (by omega)⟩

/-- Settles O45: the range check decides between the loaded registers and the fatal outcome. -/
theorem registerLoadReadsTheRun : Obligations.RegisterLoadReadsTheRun := by
  unfold Obligations.RegisterLoadReadsTheRun
  refine fun x s => ⟨isWordOf_ldVxMem x, fun hrun => ?_, fun hbeyond => ?_⟩
  · exact ⟨_, withRange_ok _ _ (.inr (by omega)), rfl, loadRegs_get s _ x, fun p => same_regs_advance p s _⟩
  · exact ⟨_, withRange_fatal _ _ (by omega) (by omega)⟩

/-- Settles O49: the sprite is a run of `n` bytes at I. -/
theorem drawBeyondMemoryIsFatal : Obligations.DrawBeyondMemoryIsFatal := by
  unfold Obligations.DrawBeyondMemoryIsFatal
  intro x y n s hn hbeyond
  exact ⟨_, withRange_fatal _ _ hn (by omega)⟩

end Sys2Proof.MemoryProofs

namespace Sys2Proof.EncodingProofs

variable {w : Word} {op n : BitVec 4} {nn : Byte}

/-! ## A word with known fixed fields is the word of its format -/

theorem encodeA_of_op (hop : opField w = op) : encodeA op (nnnField w) = w :=
  hop ▸ encodeA_fields w

theorem encodeXNN_of_op (hop : opField w = op) : encodeXNN op (xField w) (nnField w) = w :=
  hop ▸ encodeXNN_fields w

theorem encodeXYN_of_op_n (hop : opField w = op) (hn : nField w = n) :
    encodeXYN op (xField w) (yField w) n = w :=
  hop ▸ hn ▸ encodeXYN_fields w

theorem encodeX_of_op_nn (hop : opField w = op) (hnn : nnField w = nn) : encodeX op (xField w) nn = w :=
  hop ▸ hnn ▸ encodeXNN_fields w

/-! ## What the decoder answers -/

/-- The decoder's default arm is family F. -/
theorem eq_F_of_not_mem : ∀ op : BitVec 4, op ∉ [0x0#4, 0x1#4, 0x2#4, 0x3#4, 0x4#4, 0x5#4, 0x6#4, 0x7#4, 0x8#4, 0x9#4,
    0xA#4, 0xB#4, 0xC#4, 0xD#4, 0xE#4] → op = 0xF#4 := by
  decide

/-- `d` is a faithful answer for `w`: an instruction whose word is `w`, or `Unknown(w)` itself (R56, R58). -/
def Faithful (w : Word) (d : Decoded) : Prop :=
  (∃ i, d = .instr i ∧ encode i = w) ∨ d = .unknown w

theorem Faithful.instr {i : Instr} (h : encode i = w) : Faithful w (.instr i) := .inl ⟨i, rfl, h⟩

theorem Faithful.unknown : Faithful w (.unknown w) := .inr rfl

theorem decodeFamily0_faithful : Faithful w (decodeFamily0 w) := by
  unfold decodeFamily0
  split_ifs with hcls hret
  · exact .instr hcls.symm
  · exact .instr hret.symm
  · exact .unknown

theorem decodeFamily8_faithful (hop : opField w = 0x8#4) : Faithful w (decodeFamily8 w) := by
  unfold decodeFamily8
  split
  case h_10 => exact .unknown
  all_goals next hn => exact .instr (encodeXYN_of_op_n hop hn)

theorem decodeFamilyE_faithful (hop : opField w = 0xE#4) : Faithful w (decodeFamilyE w) := by
  unfold decodeFamilyE
  split
  case h_3 => exact .unknown
  all_goals next hnn => exact .instr (encodeX_of_op_nn hop hnn)

theorem decodeFamilyF_faithful (hop : opField w = 0xF#4) : Faithful w (decodeFamilyF w) := by
  unfold decodeFamilyF
  split
  case h_10 => exact .unknown
  all_goals next hnn => exact .instr (encodeX_of_op_nn hop hnn)

/-- Families 5 and 9: one instruction, at the sub-operation nibble 0 (R56). -/
theorem nibble0_faithful {i : Instr} (h : nField w = 0x0#4 → encode i = w) :
    Faithful w (if nField w = 0x0#4 then .instr i else .unknown w) := by
  split_ifs with hn
  · exact .instr (h hn)
  · exact .unknown

theorem decodeWord_faithful (w : Word) : Faithful w (decodeWord w) := by
  unfold decodeWord
  split
  next => exact decodeFamily0_faithful
  next hop => exact .instr (encodeA_of_op hop)
  next hop => exact .instr (encodeA_of_op hop)
  next hop => exact .instr (encodeXNN_of_op hop)
  next hop => exact .instr (encodeXNN_of_op hop)
  next hop => exact nibble0_faithful (encodeXYN_of_op_n hop)
  next hop => exact .instr (encodeXNN_of_op hop)
  next hop => exact .instr (encodeXNN_of_op hop)
  next hop => exact decodeFamily8_faithful hop
  next hop => exact nibble0_faithful (encodeXYN_of_op_n hop)
  next hop => exact .instr (encodeA_of_op hop)
  next hop => exact .instr (encodeA_of_op hop)
  next hop => exact .instr (encodeXNN_of_op hop)
  next hop => exact .instr (encodeXYN_of_op_n hop rfl)
  next hop => exact decodeFamilyE_faithful hop
  next => exact decodeFamilyF_faithful (eq_F_of_not_mem _ (by simp_all))

theorem encode_of_decodeWord {i : Instr} (h : decodeWord w = .instr i) : encode i = w := by
  obtain ⟨j, hj, hw⟩ | hu := decodeWord_faithful w
  · cases h.symm.trans hj
    exact hw
  · cases h.symm.trans hu

theorem eq_of_decodeWord_unknown {u : Word} (h : decodeWord w = .unknown u) : u = w := by
  obtain ⟨j, hj, -⟩ | hu := decodeWord_faithful w
  · cases h.symm.trans hj
  · cases h.symm.trans hu
    rfl

/-! ## The round trip -/

/-- Settles O1: the decoder reads back the fields that each format wrote. -/
theorem decodeOfEncode : Obligations.DecodeOfEncode := by
  unfold Obligations.DecodeOfEncode
  intro i
  cases i with
  | cls | ret => rfl
  | jp | call | ldI | jpV0 | seImm | sneImm | ldImm | addImm | rnd | seReg | sneReg => simp [encode, decodeWord]
  | drw => simp [encode, decodeWord, bits4]
  | ldReg | orReg | andReg | xorReg | addReg | subReg | shr | subnReg | shl =>
    simp [encode, decodeWord, decodeFamily8]
  | skp | sknp => simp [encode, decodeWord, decodeFamilyE]
  | ldVxDt | ldVxK | ldDtVx | ldStVx | addI | ldF | ldB | ldMemVx | ldVxMem =>
    simp [encode, decodeWord, decodeFamilyF]

/-- Settles O2, from the decoder's answer being faithful to its word in every family. -/
theorem encodeOfDecode : Obligations.EncodeOfDecode := by
  unfold Obligations.EncodeOfDecode
  exact fun _ _ => encode_of_decodeWord

/-! ## The unsupported words -/

theorem decodeFamily0_eq_unknown_iff : decodeFamily0 w = .unknown w ↔ w ≠ 0x00E0#16 ∧ w ≠ 0x00EE#16 := by
  unfold decodeFamily0
  split_ifs with hcls hret
  · simp [hcls]
  · simp [hret]
  · simp [hcls, hret]

/-- The sub-operation nibbles of family 8 that R57 lists are those that R56 does not name. -/
theorem mem_unlisted8_of_not_mem : ∀ n : BitVec 4,
    n ∉ [0x0#4, 0x1#4, 0x2#4, 0x3#4, 0x4#4, 0x5#4, 0x6#4, 0x7#4, 0xE#4] →
      n.toNat ∈ [0x8, 0x9, 0xA, 0xB, 0xC, 0xD, 0xF] := by
  decide

theorem decodeFamily8_eq_unknown_iff :
    decodeFamily8 w = .unknown w ↔ (nField w).toNat ∈ [0x8, 0x9, 0xA, 0xB, 0xC, 0xD, 0xF] := by
  unfold decodeFamily8
  split
  case h_10 => exact iff_of_true rfl (mem_unlisted8_of_not_mem _ (by simp_all))
  all_goals next hn => simp [hn]

theorem decodeFamilyE_eq_unknown_iff : decodeFamilyE w = .unknown w ↔ (nnField w).toNat ∉ [0x9E, 0xA1] := by
  unfold decodeFamilyE
  split
  case h_3 => simp_all [← BitVec.toNat_inj]
  all_goals next hnn => simp [hnn]

theorem decodeFamilyF_eq_unknown_iff :
    decodeFamilyF w = .unknown w ↔
      (nnField w).toNat ∉ [0x07, 0x0A, 0x15, 0x18, 0x1E, 0x29, 0x33, 0x55, 0x65] := by
  unfold decodeFamilyF
  split
  case h_10 => simp_all [← BitVec.toNat_inj]
  all_goals next hnn => simp [hnn]

/-- Settles O5: the families that have unknown words, each with its own list. -/
theorem unsupportedWordsAreThoseListed : Obligations.UnsupportedWordsAreThoseListed := by
  unfold Obligations.UnsupportedWordsAreThoseListed
  intro w
  rw [← opField_toNat, ← nField_toNat, ← nnField_toNat]
  unfold decodeWord
  split
  case h_1 hop => simp [hop, decodeFamily0_eq_unknown_iff]
  case h_6 hop | h_10 hop => simp [hop, ← BitVec.toNat_inj]
  case h_9 hop => simp [hop, decodeFamily8_eq_unknown_iff]
  case h_15 hop => simp [hop, decodeFamilyE_eq_unknown_iff]
  case h_16 =>
    have hop : opField w = 0xF#4 := eq_F_of_not_mem _ (by simp_all)
    simp [hop, decodeFamilyF_eq_unknown_iff]
  all_goals next hop => simp [hop]

/-! ## The opcode table -/

theorem matchesWord_iff {r : OpcodeRow} : r.matchesWord w = true ↔ w &&& r.mask = r.pattern := beq_iff_eq

/-- Two rows that fix the same value on every bit that both fix are one row. -/
theorem row_eq_of_compatible : ∀ r ∈ opcodeTable, ∀ r' ∈ opcodeTable,
    r.pattern &&& r'.mask = r'.pattern &&& r.mask → r' = r := by
  decide

/-- No word matches two rows. -/
theorem row_eq_of_matchesWord {r r' : OpcodeRow} (hr : r ∈ opcodeTable) (hr' : r' ∈ opcodeTable)
    (h : r.matchesWord w = true) (h' : r'.matchesWord w = true) : r' = r := by
  rw [matchesWord_iff] at h h'
  apply row_eq_of_compatible r hr r' hr'
  rw [← h, ← h', BitVec.and_assoc, BitVec.and_assoc, BitVec.and_comm r.mask]

/-- Every instruction's word has its row's fixed bits. -/
theorem fixedBits : ∀ i : Instr, Laws.FixedBits.Statement i
  | .cls => Laws.FixedBits.cls
  | .ret => Laws.FixedBits.ret
  | .jp nnn => Laws.FixedBits.jp nnn
  | .call nnn => Laws.FixedBits.call nnn
  | .seImm x nn => Laws.FixedBits.seImm x nn
  | .sneImm x nn => Laws.FixedBits.sneImm x nn
  | .seReg x y => Laws.FixedBits.seReg x y
  | .ldImm x nn => Laws.FixedBits.ldImm x nn
  | .addImm x nn => Laws.FixedBits.addImm x nn
  | .ldReg x y => Laws.FixedBits.ldReg x y
  | .orReg x y => Laws.FixedBits.orReg x y
  | .andReg x y => Laws.FixedBits.andReg x y
  | .xorReg x y => Laws.FixedBits.xorReg x y
  | .addReg x y => Laws.FixedBits.addReg x y
  | .subReg x y => Laws.FixedBits.subReg x y
  | .shr x y => Laws.FixedBits.shr x y
  | .subnReg x y => Laws.FixedBits.subnReg x y
  | .shl x y => Laws.FixedBits.shl x y
  | .sneReg x y => Laws.FixedBits.sneReg x y
  | .ldI nnn => Laws.FixedBits.ldI nnn
  | .jpV0 nnn => Laws.FixedBits.jpV0 nnn
  | .rnd x nn => Laws.FixedBits.rnd x nn
  | .drw x y n => Laws.FixedBits.drw x y n
  | .skp x => Laws.FixedBits.skp x
  | .sknp x => Laws.FixedBits.sknp x
  | .ldVxDt x => Laws.FixedBits.ldVxDt x
  | .ldVxK x => Laws.FixedBits.ldVxK x
  | .ldDtVx x => Laws.FixedBits.ldDtVx x
  | .ldStVx x => Laws.FixedBits.ldStVx x
  | .addI x => Laws.FixedBits.addI x
  | .ldF x => Laws.FixedBits.ldF x
  | .ldB x => Laws.FixedBits.ldB x
  | .ldMemVx x => Laws.FixedBits.ldMemVx x
  | .ldVxMem x => Laws.FixedBits.ldVxMem x

/-- The fixed fields of the table's rows, by mask: the whole word, the family alone, or the family with the sub-operation
nibble or byte (R53, R55). -/
theorem row_fixed_fields : ∀ r ∈ opcodeTable,
    (r.mask = 0xFFFF#16 ∧ (r.pattern = 0x00E0#16 ∨ r.pattern = 0x00EE#16))
      ∨ (r.mask = 0xF000#16 ∧ (opField r.pattern).toNat ∉ [0x0, 0x5, 0x8, 0x9, 0xE, 0xF])
      ∨ (r.mask = 0xF00F#16 ∧ (((opField r.pattern).toNat ∈ [0x5, 0x9] ∧ (nField r.pattern).toNat = 0)
          ∨ ((opField r.pattern).toNat = 0x8
            ∧ (nField r.pattern).toNat ∉ [0x8, 0x9, 0xA, 0xB, 0xC, 0xD, 0xF])))
      ∨ (r.mask = 0xF0FF#16 ∧ (((opField r.pattern).toNat = 0xE ∧ (nnField r.pattern).toNat ∈ [0x9E, 0xA1])
          ∨ ((opField r.pattern).toNat = 0xF
            ∧ (nnField r.pattern).toNat ∈ [0x07, 0x0A, 0x15, 0x18, 0x1E, 0x29, 0x33, 0x55, 0x65]))) := by
  decide

/-- The fields that a row fixes keep its words out of the list of R57. -/
theorem not_matchesWord_of_unknown (hw : decodeWord w = .unknown w) {r : OpcodeRow} (hr : r ∈ opcodeTable) :
    r.matchesWord w = false := by
  rw [Bool.eq_false_iff, Ne, matchesWord_iff]
  intro h
  have hlisted := (unsupportedWordsAreThoseListed w).1 hw
  rw [← opField_toNat, ← nField_toNat, ← nnField_toNat] at hlisted
  obtain ⟨hm, hf⟩ | ⟨hm, hf⟩ | ⟨hm, hf⟩ | ⟨hm, hf⟩ := row_fixed_fields r hr
  · rw [hm, mask_FFFF] at h
    subst h
    obtain e | e := hf <;> simp [e, opField] at hlisted
  · rw [hm, mask_F000] at h
    simp only [← h, opField_encodeA, List.mem_cons, List.not_mem_nil, or_false] at hf hlisted
    omega
  · rw [hm, mask_F00F] at h
    simp only [← h, opField_encodeXYN, nField_encodeXYN, List.mem_cons, List.not_mem_nil, or_false] at hf hlisted
    omega
  · rw [hm, mask_F0FF] at h
    simp only [← h, opField_encodeXNN, nnField_encodeXNN, List.mem_cons, List.not_mem_nil, or_false] at hf hlisted
    omega

/-- Settles O4: a decoded word is its instruction's word, which has its row's fixed bits; an unknown word is listed. -/
theorem decoderAgreesWithOpcodeTable : Obligations.DecoderAgreesWithOpcodeTable := by
  unfold Obligations.DecoderAgreesWithOpcodeTable
  refine fun w => ⟨fun i hi => ?_, fun u hu => ?_⟩
  · obtain ⟨r, hr, hmnemonic, hmatch⟩ := fixedBits i
    rw [encode_of_decodeWord hi] at hmatch
    exact ⟨r, hr, hmnemonic, hmatch, fun r' hr' h' => row_eq_of_matchesWord hr hr' hmatch h'⟩
  · obtain rfl := eq_of_decodeWord_unknown hu
    exact ⟨rfl, fun r hr => not_matchesWord_of_unknown hu hr⟩

end Sys2Proof.EncodingProofs

namespace Sys2Proof.StepProofs

open Sys2Proof.Machine Sys2Proof.StateProofs

/-! ## The frames of the step's own writes -/

section Frames

variable (s : State)

/-- The timer phase writes the timers and the sound event (R67, R69). -/
theorem onlyChanges_timerPhase : OnlyChanges [] [.delay, .sound, .soundEvent] s (timerPhase s) := by
  apply onlyChanges_of <;> simp

/-- Recording a fault writes FAULT and the sound event (R118). -/
theorem onlyChanges_recordFault (reason : FatalReason) :
    OnlyChanges [] [.fault, .soundEvent] s (s.recordFault reason) := by
  apply onlyChanges_of <;> simp

/-- An unsupported request writes the sound event alone (R69, R117). -/
theorem onlyChanges_soundEvent (b : Bool) : OnlyChanges [] [.soundEvent] s { s with soundEvent := b } := by
  apply onlyChanges_of <;> simp [State.reg]

end Frames

/-! ## A step with a decoded instruction -/

section StepOfInstr

variable {s t : State} {w : Word} {i : Instr}

/-- A step whose execute part completes ends with the timer phase (R61, R67). -/
theorem step_of_exec_next (hf : s.fault = none) (hw : s.Fetches w) (hd : decodeWord w = .instr i)
    (he : exec i s = .next t) : step s = .next (timerPhase t) := by
  rw [step_of_instr hf hw hd, he, endStep]

/-- A step whose execute part faults ends with that fault, without a timer phase (R61, R67). -/
theorem step_of_exec_fault {f : Fault} (hf : s.fault = none) (hw : s.Fetches w) (hd : decodeWord w = .instr i)
    (he : exec i s = .fault f) : step s = .fault f := by
  rw [step_of_instr hf hw hd, he, endStep]

end StepOfInstr

/-- Settles O6: the step is the execute part with `endStep`, whose timer phase writes the timers and the sound event. -/
theorem stepRunsDecodedInstruction : Obligations.StepRunsDecodedInstruction := by
  unfold Obligations.StepRunsDecodedInstruction
  refine fun s w i hf hw hd => ⟨fun t he => ?_, fun f he => step_of_exec_fault hf hw hd he⟩
  have hevent : (t.sound == 1#8) = decide (t.sound.toNat = 1) := by simp [beq_eq_decide, BitVec.toNat_eq]
  exact ⟨timerPhase t, step_of_exec_next hf hw hd he, rfl, onlyChanges_timerPhase t, countDown_toNat _,
    countDown_toNat _, hevent⟩

/-! ## The timer phase -/

/-- A countdown in the form of R67. -/
theorem countDown_eq (v : Byte) : countDown v = if 0 < v.toNat then v - 1#8 else v := by
  have hzero : v = 0#8 ↔ ¬ 0 < v.toNat := by simp [BitVec.toNat_eq]
  simp only [countDown, hzero, ite_not]

/-- Settles O13: a completed step ends with the timer phase, a fatal one only records its reason, and an unsupported
request only clears the sound event. -/
theorem timersCountDownOncePerCompletedStep : Obligations.TimersCountDownOncePerCompletedStep := by
  unfold Obligations.TimersCountDownOncePerCompletedStep
  refine ⟨fun s u h => ?_, fun s reason after h => ?_, fun s t w h => ?_⟩
  · obtain ⟨w, i, t, -, hw, hd, he, rfl⟩ := step_next h
    exact ⟨w, i, t, hw, hd, he, beq_eq_decide _ _, countDown_eq _, countDown_eq _⟩
  · obtain ⟨-, rfl⟩ := step_fatal h
    exact ⟨rfl, rfl⟩
  · obtain ⟨-, hr⟩ | ⟨reason, -, hr⟩ | ⟨w, -, rfl, -⟩ := requestStep_cases h
    · cases hr
    · cases hr
    · exact ⟨rfl, rfl⟩

/-- A completed step has the sound event exactly when its execute part left ST = 1 (R69). -/
theorem soundEvent_of_step_next {s t : State} (h : step s = .next t) :
    t.soundEvent = true ↔ ∃ w i u, s.Fetches w ∧ decodeWord w = .instr i ∧ exec i s = .next u ∧ u.sound = 1#8 := by
  obtain ⟨w, i, u, hf, hw, hd, he, rfl⟩ := step_next h
  constructor
  · intro hevent
    exact ⟨w, i, u, hw, hd, he, by simpa using hevent⟩
  · rintro ⟨w', i', u', hw', hd', he', hsound⟩
    have hsame : timerPhase u' = timerPhase u := by
      simpa [step_of_exec_next hf hw' hd' he'] using h
    rw [← hsame]
    simpa using hsound

/-- Settles O14, by the three outcomes of a request. -/
theorem soundEventMarksTheEdge : Obligations.SoundEventMarksTheEdge := by
  unfold Obligations.SoundEventMarksTheEdge
  intro s t report h
  obtain ⟨hstep, rfl⟩ | ⟨reason, hstep, rfl⟩ | ⟨w, -, rfl, rfl⟩ := requestStep_cases h
  · simpa using soundEvent_of_step_next hstep
  · obtain ⟨-, rfl⟩ := step_fatal hstep
    simp
  · simp

/-- Settles O15: the three execute parts always complete, and the timer phase comes after them. -/
theorem timerWriteThenDecrementInOneStep : Obligations.TimerWriteThenDecrementInOneStep := by
  unfold Obligations.TimerWriteThenDecrementInOneStep
  refine fun s w x hf hw => ⟨fun hd => ?_, fun hd => ?_, fun hd => ?_⟩
  · exact ⟨_, step_of_exec_next hf hw hd rfl, countDown_toNat _⟩
  · exact ⟨_, step_of_exec_next hf hw hd rfl, countDown_toNat _, beq_iff_eq⟩
  · exact ⟨_, step_of_exec_next hf hw hd rfl, by simp, countDown_toNat _⟩

/-! ## Unsupported words and fatal outcomes -/

/-- A request of a refused step reports the word and clears the sound event output (R69, R117). -/
theorem requestStep_of_refused {s : State} {w : Word} (h : step s = .refused (.unsupported w)) :
    requestStep s = some ({ s with soundEvent := false }, .unsupported w) := by
  rw [requestStep, h]
  rfl

/-- Settles O8: the refusal does not depend on the sound event, the only part that the request writes. -/
theorem unsupportedWordIsReported : Obligations.UnsupportedWordIsReported := by
  unfold Obligations.UnsupportedWordIsReported
  intro s w hf hw hd
  have hstep := step_of_unknown hf hw hd
  have hagain : step { s with soundEvent := false } = .refused (.unsupported w) :=
    step_refused_congr (s := s) rfl rfl rfl hstep
  exact ⟨hstep, _, requestStep_of_refused hstep, rfl, onlyChanges_soundEvent s false, rfl, requestStep_of_refused hagain⟩

/-- Settles O10: a fatal step is `recordFault` of the state before it. -/
theorem fatalStepSetsOnlyFault : Obligations.FatalStepSetsOnlyFault := by
  unfold Obligations.FatalStepSetsOnlyFault
  intro s reason after h
  obtain ⟨hf, rfl⟩ := step_fatal h
  exact ⟨hf, rfl, rfl, rfl, onlyChanges_recordFault s reason⟩

/-- Why the execute part of an instruction is fatal, one case for each row of R116 that an instruction can raise. -/
inductive FatalCause (s : State) : Instr → FatalReason → Prop
  | stackOverflow (nnn : Addr12) (hfull : s.sp.val = 16) : FatalCause s (.call nnn) .stackOverflow
  | stackUnderflow (hempty : s.sp.val = 0) : FatalCause s .ret .stackUnderflow
  | memoryOutOfRange {i : Instr} (hi : ∃ x, (∃ y n, i = .drw x y n) ∨ i = .ldB x ∨ i = .ldMemVx x ∨ i = .ldVxMem x)
      (a : Nat) (ha : 4096 ≤ a) : FatalCause s i (.memoryOutOfRange a)
  | keyIndexOutOfRange {i : Instr} (x : RegIdx) (hi : i = .skp x ∨ i = .sknp x) (hkey : 16 ≤ (s.reg x).toNat) :
      FatalCause s i (.keyIndexOutOfRange (s.reg x))
  | indexOverflow (x : RegIdx) (hparam : s.params.indexOverflow = .fault) (hsum : 0xFFFF < indexSum s x) :
      FatalCause s (.addI x) .indexOverflow

section ExecFatal

variable {s u : State} {reason : FatalReason}

/-- A range-checked instruction is fatal only at an address that does not exist (R36, R38, R121). -/
theorem fatalCause_of_withRange {i : Instr} {a k : Nat} {act : State}
    (hi : ∃ x, (∃ y n, i = .drw x y n) ∨ i = .ldB x ∨ i = .ldMemVx x ∨ i = .ldVxMem x)
    (h : withRange a k s act = .fault (.fatal reason u)) : FatalCause s i reason := by
  obtain ⟨-, e⟩ | ⟨-, e⟩ := withRange_cases a k s act <;> rw [e] at h <;> cases h
  exact .memoryOutOfRange hi _ (le_max_right a 4096)

/-- A value that names no key is 16 or more (R110). -/
theorem le_of_keyOperand_eq_none {v : Byte} (h : keyOperand v = none) : 16 ≤ v.toNat := by
  by_contra hlt
  rw [keyOperand_of_lt ⟨v.toNat, by omega⟩ rfl] at h
  cases h

/-- A fatal CALL found a full stack (R75, R120). -/
theorem exec_call_fatal {nnn : Addr12} (h : exec (.call nnn) s = .fault (.fatal reason u)) :
    FatalCause s (.call nnn) reason := by
  obtain hfull | ⟨k, hk⟩ := sp_full_or_free s
  · rw [exec_call_of_full nnn hfull] at h; cases h; exact .stackOverflow nnn hfull
  · rw [exec_call_of_free nnn k hk] at h; cases h

/-- A fatal RET found an empty stack (R76, R120). -/
theorem exec_ret_fatal (h : exec .ret s = .fault (.fatal reason u)) : FatalCause s .ret reason := by
  obtain hempty | ⟨k, hk⟩ := sp_empty_or_used s
  · rw [exec_ret_of_empty hempty] at h; cases h; exact .stackUnderflow hempty
  · rw [exec_ret_of_used k hk] at h; cases h

/-- A fatal SKP found a value that names no key (R110, R122). -/
theorem exec_skp_fatal {x : RegIdx} (h : exec (.skp x) s = .fault (.fatal reason u)) : FatalCause s (.skp x) reason := by
  simp only [exec, execSkp] at h
  split at h <;> cases h
  exact .keyIndexOutOfRange x (.inl rfl) (le_of_keyOperand_eq_none ‹_›)

/-- A fatal SKNP found a value that names no key (R110, R122). -/
theorem exec_sknp_fatal {x : RegIdx} (h : exec (.sknp x) s = .fault (.fatal reason u)) :
    FatalCause s (.sknp x) reason := by
  simp only [exec, execSknp] at h
  split at h <;> cases h
  exact .keyIndexOutOfRange x (.inr rfl) (le_of_keyOperand_eq_none ‹_›)

/-- A fatal ADD I, Vx went past 0xFFFF with INDEX_OVERFLOW = fault (R99). -/
theorem exec_addI_fatal {x : RegIdx} (h : exec (.addI x) s = .fault (.fatal reason u)) :
    FatalCause s (.addI x) reason := by
  simp only [exec, execAddI] at h
  split at h <;> cases h
  next hover => exact .indexOverflow x hover.2 hover.1

/-- LD Vx, K is never fatal (R113). -/
theorem exec_ldVxK_ne_fault {x : RegIdx} {f : Fault} : exec (.ldVxK x) s ≠ .fault f := by
  intro h
  simp only [exec, execLdVxK] at h
  split at h <;> cases h

/-- Every fatal execute part has a cause that R116 lists. -/
theorem fatalCause_of_exec {i : Instr} (h : exec i s = .fault (.fatal reason u)) : FatalCause s i reason := by
  cases i with
  | call => exact exec_call_fatal h
  | ret => exact exec_ret_fatal h
  | skp => exact exec_skp_fatal h
  | sknp => exact exec_sknp_fatal h
  | addI => exact exec_addI_fatal h
  | drw x y n => exact fatalCause_of_withRange ⟨x, .inl ⟨y, n, rfl⟩⟩ h
  | ldB x => exact fatalCause_of_withRange ⟨x, .inr (.inl rfl)⟩ h
  | ldMemVx x => exact fatalCause_of_withRange ⟨x, .inr (.inr (.inl rfl))⟩ h
  | ldVxMem x => exact fatalCause_of_withRange ⟨x, .inr (.inr (.inr rfl))⟩ h
  | ldVxK => exact absurd h exec_ldVxK_ne_fault
  | _ => cases h

end ExecFatal

/-- Settles O11: a fault of the execute part is fatal with FAULT recorded, and its cause is one of the listed ones. -/
theorem fatalReasonsHaveTheirInstructions : Obligations.FatalReasonsHaveTheirInstructions := by
  unfold Obligations.FatalReasonsHaveTheirInstructions
  refine fun i s => ⟨exec_ne_refused i s, fun reason h => ?_, fun reason after h => ?_⟩
  · obtain ⟨r, e⟩ := exec_fault h
    cases e
  · obtain ⟨r, e⟩ := exec_fault h
    cases e
    refine ⟨rfl, rfl, onlyChanges_recordFault s reason, ?_⟩
    cases fatalCause_of_exec h with
    | stackOverflow nnn hfull => exact ⟨⟨nnn, rfl⟩, hfull⟩
    | stackUnderflow hempty => exact ⟨rfl, hempty⟩
    | memoryOutOfRange hi a ha => exact ⟨ha, hi⟩
    | keyIndexOutOfRange x hi hkey => exact ⟨hkey, x, hi, rfl⟩
    | indexOverflow x hparam hsum => exact ⟨hparam, x, rfl, hsum⟩

/-! ## The writes of pc -/

/-- A 12-bit address keeps its value as a word (R54). -/
theorem zext16_toNat (nnn : Addr12) : (zext16 nnn).toNat = nnn.toNat :=
  BitVec.toNat_setWidth_of_le (by decide)

/-- The target of JP V0 fits in a word: the sum is exact (R74). -/
theorem offsetTarget_toNat (s : State) (nnn : Addr12) : (offsetTarget s nnn).toNat = nnn.toNat + (s.reg 0).toNat := by
  have := nnn.isLt
  have := (s.reg 0).isLt
  simp only [offsetTarget, BitVec.toNat_ofNat]
  omega

/-- A skip instruction adds 2 or 4 (R77). -/
theorem skipIf_pc_or (s : State) (c : Bool) : (s.skipIf c).pc = s.pc + 2#16 ∨ (s.skipIf c).pc = s.pc + 4#16 := by
  cases c
  · exact .inl rfl
  · exact .inr rfl

/-- LD Vx, K advances exactly when some key is held (R113, R114). -/
theorem exec_ldVxK_pc {x : RegIdx} {s t : State} (h : exec (.ldVxK x) s = .next t) :
    t.pc = if ∃ k : Fin 16, s.keys[k] = true then s.pc + 2#16 else s.pc := by
  obtain ⟨k, hleast, hheld, -⟩ | ⟨hleast, hnone⟩ := leastKeyHeld_cases s <;>
    simp only [exec, execLdVxK, hleast] at h <;> cases h
  · rw [if_pos ⟨k, hheld⟩]
    rfl
  · rw [if_neg fun ⟨k, hk⟩ => by simp [hnone k] at hk]

/-- Settles O12, by the instruction. -/
theorem pcUpdatePolicy : Obligations.PcUpdatePolicy := by
  unfold Obligations.PcUpdatePolicy
  intro i s t h
  cases i with
  | jp nnn => cases h; exact zext16_toNat nnn
  | call nnn => obtain ⟨k, -, rfl⟩ := exec_call_next h; exact zext16_toNat nnn
  | jpV0 nnn => cases h; exact offsetTarget_toNat s nnn
  | ret => obtain ⟨k, hk, rfl⟩ := exec_ret_next h; exact ⟨k, hk.symm, rfl⟩
  | ldVxK => exact exec_ldVxK_pc h
  | seImm | sneImm | seReg | sneReg => cases h; exact skipIf_pc_or s _
  | skp => obtain ⟨c, rfl⟩ := exec_skp_next h; exact skipIf_pc_or s c
  | sknp => obtain ⟨c, rfl⟩ := exec_sknp_next h; exact skipIf_pc_or s c
  | addI => obtain ⟨v, rfl⟩ := exec_addI_next h; rfl
  | drw | ldB | ldMemVx | ldVxMem => obtain ⟨-, rfl⟩ := withRange_next h; rfl
  | _ => cases h; rfl

end Sys2Proof.StepProofs

namespace Sys2Proof.ControlFlowProofs

open Sys2Proof.Machine Sys2Proof.StateProofs Sys2Proof.StepProofs

/-! ## The words of the control flow instructions -/

/-- A number that is an instruction's encoding is the word of that instruction (R56, R60). -/
theorem isWordOf_of_encode {v : Nat} {i : Instr} (h : BitVec.ofNat 16 v = encode i) : IsWordOf v i := by
  rw [IsWordOf, h]
  exact EncodingProofs.decodeOfEncode i

/-- The word 1nnn is JP addr (R55). -/
theorem isWordOf_jp (nnn : Addr12) : IsWordOf (0x1000 + nnn.toNat) (.jp nnn) :=
  isWordOf_of_encode (ofNat_encodeA 0x1#4 nnn)

/-- The word 2nnn is CALL addr (R55). -/
theorem isWordOf_call (nnn : Addr12) : IsWordOf (0x2000 + nnn.toNat) (.call nnn) :=
  isWordOf_of_encode (ofNat_encodeA 0x2#4 nnn)

/-- The word Bnnn is JP V0, addr (R55). -/
theorem isWordOf_jpV0 (nnn : Addr12) : IsWordOf (0xB000 + nnn.toNat) (.jpV0 nnn) :=
  isWordOf_of_encode (ofNat_encodeA 0xB#4 nnn)

/-- The word 00EE is RET (R55). -/
theorem isWordOf_ret : IsWordOf 0x00EE .ret := isWordOf_of_encode rfl

/-! ## What the control flow instructions write -/

section Writes

variable (s : State)

/-- JP addr is a write of pc (R73). -/
theorem exec_jp (nnn : Addr12) : exec (.jp nnn) s = .next (s.setPc (zext16 nnn)) := rfl

/-- JP V0, addr is a write of pc (R74). -/
theorem exec_jpV0 (nnn : Addr12) : exec (.jpV0 nnn) s = .next (s.setPc (offsetTarget s nnn)) := rfl

/-- A write of pc changes no part that the frame speaks of. -/
theorem onlyChanges_setPc (target : Word) : OnlyChanges [] [] s (s.setPc target) := by
  apply onlyChanges_of <;> simp

/-- The frame of a write of the stack, its pointer and pc: the stack or the pointer is outside it only where its value is
the old one. -/
theorem onlyChanges_stack_sp_pc {parts : List Part} {st : Vector Word 16} {k : Fin 17} (target : Word)
    (hst : Part.stack ∉ parts → st = s.stack) (hsp : Part.sp ∉ parts → k = s.sp) :
    OnlyChanges [] parts s { s with stack := st, sp := k, pc := target } := by
  apply onlyChanges_of <;> simp +contextual [State.reg, hst, hsp]

/-- The entry written reads as the value written. -/
theorem stack_set_same (st : Vector Word 16) (k : Fin 16) (v : Word) : (st.set k v)[k] = v :=
  Vector.getElem_set_self _

/-- Writing one stack entry leaves every other one. -/
theorem stack_set_of_ne (st : Vector Word 16) {j k : Fin 16} (v : Word) (h : j ≠ k) : (st.set k v)[j] = st[j] :=
  Vector.getElem_set_ne _ _ (Fin.val_ne_of_ne h.symm)

end Writes

/-! ## Jumps -/

/-- Settles O26. -/
theorem jumpSetsPc : Obligations.JumpSetsPc := by
  unfold Obligations.JumpSetsPc
  exact fun nnn s => ⟨isWordOf_jp nnn, _, exec_jp s nnn, zext16_toNat nnn, onlyChanges_setPc s _⟩

/-- Settles O27: the sum of a 12-bit address and a byte fits in pc. -/
theorem jumpWithOffsetAddsV0 : Obligations.JumpWithOffsetAddsV0 := by
  unfold Obligations.JumpWithOffsetAddsV0
  exact fun nnn s => ⟨isWordOf_jpV0 nnn, _, exec_jpV0 s nnn, offsetTarget_toNat s nnn, onlyChanges_setPc s _⟩

/-- A JP to its own address leaves the execute part's state as it was (R73). -/
theorem exec_jp_self {s : State} {nnn : Addr12} (hpc : s.pc.toNat = nnn.toNat) : exec (.jp nnn) s = .next s := by
  have htarget : zext16 nnn = s.pc := BitVec.eq_of_toNat_eq ((zext16_toNat nnn).trans hpc.symm)
  rw [exec_jp, htarget]
  rfl

/-- Settles O31, by induction on the number of steps: each one is the timer phase alone, which keeps FAULT, pc and memory
and so the word that the next step fetches. -/
theorem jumpToItselfRunsForever : Obligations.JumpToItselfRunsForever := by
  unfold Obligations.JumpToItselfRunsForever
  intro s w nnn hf hw hd hpc k
  induction k generalizing s with
  | zero => trivial
  | succ k ih =>
    have hstep : step s = .next (timerPhase s) := step_of_exec_next hf hw hd (exec_jp_self hpc)
    exact ⟨timerPhase s, hstep, ih (timerPhase s) hf hw hpc⟩

/-! ## Calls and returns -/

/-- Settles O28, by whether the stack has a free entry. -/
theorem callPushesItsAddress : Obligations.CallPushesItsAddress := by
  unfold Obligations.CallPushesItsAddress
  intro nnn s
  refine ⟨isWordOf_call nnn, fun k hk => ?_, fun hfull => ⟨_, exec_call_of_full nnn hfull⟩⟩
  exact ⟨_, exec_call_of_free nnn k hk, zext16_toNat nnn, rfl, stack_set_same s.stack k s.pc,
    fun j hj => stack_set_of_ne s.stack s.pc hj, onlyChanges_stack_sp_pc s _ (by simp) (by simp)⟩

/-- Settles O29, by whether the stack has an entry in use. -/
theorem returnPopsTheStack : Obligations.ReturnPopsTheStack := by
  unfold Obligations.ReturnPopsTheStack
  intro s
  refine ⟨isWordOf_ret, fun k hk => ?_, fun hempty => ⟨_, exec_ret_of_empty hempty⟩⟩
  exact ⟨_, exec_ret_of_used k hk, rfl, BitVec.toNat_add _ _, onlyChanges_stack_sp_pc s _ (fun _ => rfl) (by simp)⟩

/-- A RET right after a CALL takes the entry that the CALL pushed: it restores SP and resumes two bytes after the CALL,
and what is left of the CALL is its stale entry (R75, R76, C8). -/
theorem exec_ret_after_call {s : State} (nnn : Addr12) (k : Fin 16) (hk : s.sp.val = k.val) :
    exec .ret { s with stack := s.stack.set k s.pc, sp := ⟨k.val + 1, Nat.succ_lt_succ k.isLt⟩, pc := zext16 nnn } =
      .next { s with stack := s.stack.set k s.pc, pc := s.pc + 2#16 } := by
  have hsp : (⟨k.val, Nat.lt_succ_of_lt k.isLt⟩ : Fin 17) = s.sp := Fin.ext hk.symm
  rw [exec_ret_of_used k rfl, hsp, stack_set_same]

/-- Settles O30: the RET takes the entry that the CALL pushed, which lies above every live one. -/
theorem callThenReturnResumesAfterTheCall : Obligations.CallThenReturnResumesAfterTheCall := by
  unfold Obligations.CallThenReturnResumesAfterTheCall
  intro nnn s t h
  obtain ⟨k, hk, rfl⟩ := exec_call_next h
  refine ⟨_, exec_ret_after_call nnn k hk, rfl, rfl,
    onlyChanges_stack_sp_pc s _ (by simp) (fun _ => rfl), fun j hj => ?_⟩
  have hlive : j < k := Fin.lt_def.2 (hk ▸ hj)
  exact stack_set_of_ne s.stack s.pc hlive.ne

end Sys2Proof.ControlFlowProofs

namespace Sys2Proof.SkipProofs

open Sys2Proof.Machine Sys2Proof.ControlFlowProofs

/-! ## The words of the skips -/

/-- The word 3xnn is SE Vx, nn (R55). -/
theorem isWordOf_seImm (x : RegIdx) (nn : Byte) : IsWordOf (0x3000 + x.val * 256 + nn.toNat) (.seImm x nn) :=
  isWordOf_of_encode (ofNat_encodeXNN 0x3#4 x nn)

/-- The word 4xnn is SNE Vx, nn (R55). -/
theorem isWordOf_sneImm (x : RegIdx) (nn : Byte) : IsWordOf (0x4000 + x.val * 256 + nn.toNat) (.sneImm x nn) :=
  isWordOf_of_encode (ofNat_encodeXNN 0x4#4 x nn)

/-- The word 5xy0 is SE Vx, Vy (R55). -/
theorem isWordOf_seReg (x y : RegIdx) : IsWordOf (0x5000 + x.val * 256 + y.val * 16) (.seReg x y) :=
  isWordOf_of_encode (ofNat_encodeXYN 0x5#4 x y 0x0#4)

/-- The word 9xy0 is SNE Vx, Vy (R55). -/
theorem isWordOf_sneReg (x y : RegIdx) : IsWordOf (0x9000 + x.val * 256 + y.val * 16) (.sneReg x y) :=
  isWordOf_of_encode (ofNat_encodeXYN 0x9#4 x y 0x0#4)

/-! ## What a skip writes -/

section Writes

variable (s : State)

/-- A skip changes no part that the frame speaks of (R77). -/
theorem onlyChanges_skipIf (c : Bool) : OnlyChanges [] [] s (s.skipIf c) := onlyChanges_setPc s _

/-- A skip adds 4 or 2 to pc, modulo 2^16 (R77). -/
theorem skipIf_pc_toNat (c : Bool) : (s.skipIf c).pc.toNat = (s.pc.toNat + if c then 4 else 2) % 65536 := by
  cases c
  · exact BitVec.toNat_add _ _
  · exact BitVec.toNat_add _ _

/-- A skip on equality adds 4 exactly when the two bytes are equal (R78, R80). -/
theorem skipIf_beq_pc_toNat (a b : Byte) :
    (s.skipIf (a == b)).pc.toNat = (s.pc.toNat + if a = b then 4 else 2) % 65536 := by
  simp only [skipIf_pc_toNat, beq_iff_eq]

/-- A skip on inequality adds 2 exactly when the two bytes are equal (R79, R81). -/
theorem skipIf_bne_pc_toNat (a b : Byte) :
    (s.skipIf (a != b)).pc.toNat = (s.pc.toNat + if a = b then 2 else 4) % 65536 := by
  simp only [skipIf_pc_toNat, bne_iff_ne, ne_eq, ite_not]

end Writes

/-- Settles O32: the two instructions are the skips on equality and on inequality of `V[x]` and the immediate. -/
theorem skipsOnImmediate : Obligations.SkipsOnImmediate := by
  unfold Obligations.SkipsOnImmediate
  refine fun x nn s => ⟨isWordOf_seImm x nn, isWordOf_sneImm x nn, ?_, ?_⟩
  · exact ⟨_, rfl, onlyChanges_skipIf s _, skipIf_beq_pc_toNat s (s.reg x) nn⟩
  · exact ⟨_, rfl, onlyChanges_skipIf s _, skipIf_bne_pc_toNat s (s.reg x) nn⟩

/-- Settles O33: the two instructions are the skips on equality and on inequality of `V[x]` and `V[y]`. -/
theorem skipsOnRegister : Obligations.SkipsOnRegister := by
  unfold Obligations.SkipsOnRegister
  refine fun x y s => ⟨isWordOf_seReg x y, isWordOf_sneReg x y, ?_, ?_⟩
  · exact ⟨_, rfl, onlyChanges_skipIf s _, skipIf_beq_pc_toNat s (s.reg x) (s.reg y)⟩
  · exact ⟨_, rfl, onlyChanges_skipIf s _, skipIf_bne_pc_toNat s (s.reg x) (s.reg y)⟩

end Sys2Proof.SkipProofs

namespace Sys2Proof.ArithmeticProofs

open Sys2Proof.Machine Sys2Proof.ControlFlowProofs

/-! ## The words of the register instructions -/

/-- The word 6xnn is LD Vx, nn (R55). -/
theorem isWordOf_ldImm (x : RegIdx) (nn : Byte) : IsWordOf (0x6000 + x.val * 256 + nn.toNat) (.ldImm x nn) :=
  isWordOf_of_encode (ofNat_encodeXNN 0x6#4 x nn)

/-- The word 7xnn is ADD Vx, nn (R55). -/
theorem isWordOf_addImm (x : RegIdx) (nn : Byte) : IsWordOf (0x7000 + x.val * 256 + nn.toNat) (.addImm x nn) :=
  isWordOf_of_encode (ofNat_encodeXNN 0x7#4 x nn)

/-- The word Cxnn is RND Vx, nn (R55). -/
theorem isWordOf_rnd (x : RegIdx) (nn : Byte) : IsWordOf (0xC000 + x.val * 256 + nn.toNat) (.rnd x nn) :=
  isWordOf_of_encode (ofNat_encodeXNN 0xC#4 x nn)

/-- A pattern of family 8, its sub-operation written first, is the word of the format (R53). -/
theorem ofNat_encodeXYN_family8 (x y : RegIdx) (n : BitVec 4) :
    BitVec.ofNat 16 (0x8000 + n.toNat + x.val * 256 + y.val * 16) = encodeXYN 0x8#4 x y n := by
  have hpattern : 0x8000 + n.toNat + x.val * 256 + y.val * 16
      = (0x8#4).toNat * 4096 + x.val * 256 + y.val * 16 + n.toNat := by
    simp only [BitVec.toNat_ofNat]; omega
  rw [hpattern, ofNat_encodeXYN]

/-- A pattern of family 8 is the instruction with its sub-operation (R55). -/
theorem isWordOf_family8 {x y : RegIdx} (n : BitVec 4) {i : Instr} (hi : encodeXYN 0x8#4 x y n = encode i) :
    IsWordOf (0x8000 + n.toNat + x.val * 256 + y.val * 16) i :=
  isWordOf_of_encode ((ofNat_encodeXYN_family8 x y n).trans hi)

/-! ## What a register instruction writes -/

section Writes

variable (s : State)

/-- An instruction that writes one register and advances leaves the value there. -/
theorem setReg_advance_reg_same (x : RegIdx) (v : Byte) : (s.setReg x v).advance.reg x = v := by simp

/-- An instruction that writes one register and advances changes no other register and no part. -/
theorem onlyChanges_setReg_advance (x : RegIdx) (v : Byte) : OnlyChanges [x] [] s (s.setReg x v).advance := by
  apply onlyChanges_of <;> simp +contextual

/-- A draw written to one register changes beside it the count of draws alone (R97, R132). -/
theorem onlyChanges_countDraw_setReg_advance (x : RegIdx) (v : Byte) :
    OnlyChanges [x] [.draws] s (s.countDraw.setReg x v).advance := by
  apply onlyChanges_of <;> simp +contextual

/-- An instruction with a flag changes its destination and VF alone (R83). -/
theorem onlyChanges_setRegFlag_advance (x : RegIdx) (v : Byte) (f : Bool) :
    OnlyChanges [x, 15] [] s (s.setRegFlag x v f).advance := by
  apply onlyChanges_of <;> simp +contextual

/-- The result of an instruction with a flag stays in a destination that is not VF (R83). -/
theorem setRegFlag_advance_reg_dest {x : RegIdx} (v : Byte) (f : Bool) (hx : x ≠ 15) :
    (s.setRegFlag x v f).advance.reg x = v := by simp [hx]

/-- VF ends as the flag, whatever the destination (R16, R83). -/
theorem setRegFlag_advance_reg_flag (x : RegIdx) (v : Byte) (f : Bool) :
    (s.setRegFlag x v f).advance.reg 15 = flagByte f := by simp

end Writes

/-! ## The flags as numbers -/

/-- A flag that decides a proposition is 1 exactly when it holds. -/
theorem flagByte_decide (p : Prop) [Decidable p] : flagByte (decide p) = if p then 1#8 else 0#8 := by
  simp [flagByte]

theorem flagByte_toNat (f : Bool) : (flagByte f).toNat = f.toNat := by
  cases f
  · rfl
  · rfl

/-- The bit that a right shift loses is the remainder by 2 (R95). -/
theorem flagByte_shiftedOutLow_toNat (v : Byte) : (flagByte (shiftedOutLow v)).toNat = v.toNat % 2 := by
  rw [flagByte_toNat, shiftedOutLow, BitVec.getLsbD, Nat.toNat_testBit, pow_zero, Nat.div_one]

/-- The bit that a left shift loses is the quotient by 128 (R96). -/
theorem flagByte_shiftedOutHigh_toNat (v : Byte) : (flagByte (shiftedOutHigh v)).toNat = v.toNat / 128 := by
  have := v.isLt
  rw [flagByte_toNat, shiftedOutHigh, BitVec.getLsbD, Nat.toNat_testBit]
  omega

/-! ## The results as numbers -/

/-- The difference of two bytes is the integer difference modulo 256 (R82). -/
theorem sub_toNat_eq_emod (a b : Byte) : ((a - b).toNat : Int) = (a.toNat - b.toNat : Int) % 256 := by
  have := b.isLt
  rw [BitVec.toNat_sub]
  omega

/-- A right shift by one is a division by 2 (R95). -/
theorem shiftRight_one_toNat (v : Byte) : (v >>> 1).toNat = v.toNat / 2 := by
  rw [BitVec.toNat_ushiftRight, Nat.shiftRight_eq_div_pow, pow_one]

/-- A left shift by one is a multiplication by 2 modulo 256 (R96). -/
theorem shiftLeft_one_toNat (v : Byte) : (v <<< 1).toNat = v.toNat * 2 % 256 := by
  rw [BitVec.toNat_shiftLeft, Nat.shiftLeft_eq, pow_one]

/-- SHIFT_SOURCE selects the register that SHR and SHL shift (R94). -/
theorem shiftOperand_eq (s : State) (x y : RegIdx) :
    shiftOperand s x y = s.reg (if s.params.shiftSource = .X then x else y) := by
  unfold shiftOperand
  cases s.params.shiftSource
  · rfl
  · rfl

/-! ## Moves, addition of an immediate and logic -/

/-- Settles O34. -/
theorem movesWriteTheDestination : Obligations.MovesWriteTheDestination := by
  unfold Obligations.MovesWriteTheDestination
  refine fun x y nn s => ⟨isWordOf_ldImm x nn, isWordOf_family8 0x0#4 rfl, ?_, ?_⟩
  · exact ⟨_, rfl, setReg_advance_reg_same s x nn, rfl, onlyChanges_setReg_advance s x nn⟩
  · exact ⟨_, rfl, setReg_advance_reg_same s x (s.reg y), rfl, onlyChanges_setReg_advance s x _⟩

/-- Settles O35: the sum of two bytes is the sum modulo 256. -/
theorem addImmediateWrapsWithoutFlag : Obligations.AddImmediateWrapsWithoutFlag := by
  unfold Obligations.AddImmediateWrapsWithoutFlag
  refine fun x nn s => ⟨isWordOf_addImm x nn, _, rfl, ?_, rfl, onlyChanges_setReg_advance s x _⟩
  rw [setReg_advance_reg_same]
  exact BitVec.toNat_add _ _

/-- Settles O36: each result is a bitwise operation of the library. -/
theorem logicIsBitwiseWithoutFlag : Obligations.LogicIsBitwiseWithoutFlag := by
  unfold Obligations.LogicIsBitwiseWithoutFlag
  refine fun x y s => ⟨isWordOf_family8 0x1#4 rfl, isWordOf_family8 0x2#4 rfl, isWordOf_family8 0x3#4 rfl,
    ⟨_, rfl, rfl, onlyChanges_setReg_advance s x _, fun b _ => ?_⟩,
    ⟨_, rfl, rfl, onlyChanges_setReg_advance s x _, fun b _ => ?_⟩,
    ⟨_, rfl, rfl, onlyChanges_setReg_advance s x _, fun b _ => ?_⟩⟩
  · rw [setReg_advance_reg_same, BitVec.getLsbD_or]
  · rw [setReg_advance_reg_same, BitVec.getLsbD_and]
  · rw [setReg_advance_reg_same, BitVec.getLsbD_xor]

/-! ## Arithmetic and shifts with a flag -/

/-- Settles O37: the carry is the flag, written last. -/
theorem addSetsCarry : Obligations.AddSetsCarry := by
  unfold Obligations.AddSetsCarry
  refine fun x y s => ⟨isWordOf_family8 0x4#4 rfl, _, rfl, rfl, onlyChanges_setRegFlag_advance s x _ _, fun hx => ?_, ?_⟩
  · rw [setRegFlag_advance_reg_dest s _ _ hx]
    exact BitVec.toNat_add _ _
  · rw [setRegFlag_advance_reg_flag, carryFlag, flagByte_decide]

/-- A difference written to `V[x]` with its no-borrow flag, for SUB and SUBN alike (R83, R92, R93). -/
theorem setRegFlag_sub_advance (s : State) (x : RegIdx) (a b : Byte) :
    (x ≠ 15 → (((s.setRegFlag x (a - b) (noBorrowFlag a b)).advance.reg x).toNat : Int) = (a.toNat - b.toNat : Int) % 256)
      ∧ (s.setRegFlag x (a - b) (noBorrowFlag a b)).advance.reg 15 = if b.toNat ≤ a.toNat then 1#8 else 0#8 := by
  refine ⟨fun hx => ?_, ?_⟩
  · rw [setRegFlag_advance_reg_dest s _ _ hx, sub_toNat_eq_emod]
  · rw [setRegFlag_advance_reg_flag, noBorrowFlag, flagByte_decide]

/-- Settles O38: SUB and SUBN are one subtraction with its operands in either order. -/
theorem subtractionsSetNoBorrow : Obligations.SubtractionsSetNoBorrow := by
  unfold Obligations.SubtractionsSetNoBorrow
  refine fun x y s => ⟨isWordOf_family8 0x5#4 rfl, isWordOf_family8 0x7#4 rfl, ?_, ?_⟩
  · exact ⟨_, rfl, rfl, onlyChanges_setRegFlag_advance s x _ _, setRegFlag_sub_advance s x (s.reg x) (s.reg y)⟩
  · exact ⟨_, rfl, rfl, onlyChanges_setRegFlag_advance s x _ _, setRegFlag_sub_advance s x (s.reg y) (s.reg x)⟩

/-- SHR of the operand that SHIFT_SOURCE selects (R94, R95). -/
theorem exec_shr {s : State} {x y : RegIdx} {v : Byte} (hv : shiftOperand s x y = v) :
    exec (.shr x y) s = .next (s.setRegFlag x (v >>> 1) (shiftedOutLow v)).advance := hv ▸ rfl

/-- SHL of the operand that SHIFT_SOURCE selects (R94, R96). -/
theorem exec_shl {s : State} {x y : RegIdx} {v : Byte} (hv : shiftOperand s x y = v) :
    exec (.shl x y) s = .next (s.setRegFlag x (v <<< 1) (shiftedOutHigh v)).advance := hv ▸ rfl

/-- Settles O39: both shifts are of the one operand `v`, whichever register SHIFT_SOURCE selects. -/
theorem shiftsPutTheLostBitInTheFlag : Obligations.ShiftsPutTheLostBitInTheFlag := by
  unfold Obligations.ShiftsPutTheLostBitInTheFlag
  intro x y s v hv
  have hoperand : shiftOperand s x y = v := (shiftOperand_eq s x y).trans hv.symm
  refine ⟨isWordOf_family8 0x6#4 rfl, isWordOf_family8 0xE#4 rfl,
    ⟨_, exec_shr hoperand, rfl, onlyChanges_setRegFlag_advance s x _ _, fun hx => ?_, ?_⟩,
    ⟨_, exec_shl hoperand, rfl, onlyChanges_setRegFlag_advance s x _ _, fun hx => ?_, ?_⟩⟩
  · rw [setRegFlag_advance_reg_dest s _ _ hx, shiftRight_one_toNat]
  · rw [setRegFlag_advance_reg_flag, flagByte_shiftedOutLow_toNat]
  · rw [setRegFlag_advance_reg_dest s _ _ hx, shiftLeft_one_toNat]
  · rw [setRegFlag_advance_reg_flag, flagByte_shiftedOutHigh_toNat]

/-! ## The random byte -/

/-- Settles O40: the bits of the result are those of the free byte and of `nn`. -/
theorem randomIsMasked : Obligations.RandomIsMasked := by
  unfold Obligations.RandomIsMasked
  intro x nn s
  have hreg : (s.countDraw.setReg x (s.randByte &&& nn)).advance.reg x = Config.randByte s.draws &&& nn :=
    setReg_advance_reg_same s.countDraw x _
  refine ⟨isWordOf_rnd x nn, _, rfl, hreg, rfl, rfl, onlyChanges_countDraw_setReg_advance s x _, fun b _ hclear => ?_⟩
  rw [hreg, BitVec.getLsbD_and, hclear, Bool.and_false]

end Sys2Proof.ArithmeticProofs

namespace Sys2Proof.IndexMemoryProofs

open Sys2Proof.Machine Sys2Proof.StateProofs Sys2Proof.StepProofs Sys2Proof.ControlFlowProofs Sys2Proof.MemoryProofs

/-! ## The words of the index instructions -/

/-- The word Annn is LD I, addr (R55). -/
theorem isWordOf_ldI (nnn : Addr12) : IsWordOf (0xA000 + nnn.toNat) (.ldI nnn) :=
  isWordOf_of_encode (ofNat_encodeA 0xA#4 nnn)

/-- A pattern of family F is the instruction with its sub-operation byte (R55). -/
theorem isWordOf_familyF {x : RegIdx} (sub : Byte) {i : Instr} (hi : encodeX 0xF#4 x sub = encode i) :
    IsWordOf (0xF000 + sub.toNat + x.val * 256) i := by
  have hfamily : decodeWord (encodeX 0xF#4 x sub) = decodeFamilyF (encodeX 0xF#4 x sub) := by
    rw [decodeWord, opField_encodeX]; rfl
  rw [IsWordOf, decodeWord_familyF, ← hfamily, hi]
  exact EncodingProofs.decodeOfEncode i

/-! ## Writes of the index register -/

/-- An instruction that writes I and advances changes no register and no other part. -/
theorem onlyChanges_setIndex_advance (s : State) (v : Word) : OnlyChanges [] [.index] s (s.setIndex v).advance := by
  apply onlyChanges_of <;> simp

/-- The address of a glyph fits in I: the product is exact for the whole byte (R115). -/
theorem glyphAddress_toNat (v : Byte) : (glyphAddress v).toNat = v.toNat * 5 := by
  have := v.isLt
  simp only [glyphAddress, Config.glyphBytes, BitVec.toNat_ofNat]
  omega

/-- ADD I, Vx completes with the sum modulo 2^16 unless it passes 0xFFFF with INDEX_OVERFLOW = fault (R99, D9). -/
theorem exec_addI_of_fits_or_wraps {s : State} {x : RegIdx}
    (h : indexSum s x ≤ 0xFFFF ∨ s.params.indexOverflow = .wrap) :
    exec (.addI x) s = .next (s.setIndex (BitVec.ofNat 16 (indexSum s x))).advance := by
  refine if_neg fun ⟨hpast, hfault⟩ => ?_
  obtain hfits | hwrap := h
  · omega
  · rw [hwrap] at hfault; cases hfault

/-- ADD I, Vx past 0xFFFF with INDEX_OVERFLOW = fault is fatal (R99, D9). -/
theorem exec_addI_of_overflow {s : State} {x : RegIdx} (hpast : 0xFFFF < indexSum s x)
    (hfault : s.params.indexOverflow = .fault) : exec (.addI x) s = raiseFatal .indexOverflow s :=
  if_pos ⟨hpast, hfault⟩

/-- Settles O41. -/
theorem indexLoads : Obligations.IndexLoads := by
  unfold Obligations.IndexLoads
  refine fun nnn x s => ⟨isWordOf_ldI nnn, isWordOf_familyF 0x29#8 rfl, ?_, ?_⟩
  · exact ⟨_, rfl, zext16_toNat nnn, rfl, onlyChanges_setIndex_advance s _⟩
  · exact ⟨_, rfl, glyphAddress_toNat (s.reg x), rfl, onlyChanges_setIndex_advance s _⟩

/-- Settles O42, by the two outcomes of the exact sum. -/
theorem addToIndexWrapsOrFaults : Obligations.AddToIndexWrapsOrFaults := by
  unfold Obligations.AddToIndexWrapsOrFaults
  refine fun x s => ⟨isWordOf_familyF 0x1E#8 rfl, fun h => ?_, fun hpast hfault => ?_⟩
  · exact ⟨_, exec_addI_of_fits_or_wraps h, BitVec.toNat_ofNat _ _, rfl, onlyChanges_setIndex_advance s _⟩
  · exact ⟨_, exec_addI_of_overflow hpast hfault⟩

/-! ## The decimal digits -/

/-- The three digits of a byte are bytes that hold them exactly (R100). -/
theorem bcdDigits_toNat (v : Byte) :
    ((bcdDigits v).getD 0 0#8).toNat = v.toNat / 100
      ∧ ((bcdDigits v).getD 1 0#8).toNat = v.toNat / 10 % 10
      ∧ ((bcdDigits v).getD 2 0#8).toNat = v.toNat % 10 := by
  have := v.isLt
  simp only [bcdDigits, List.getD_cons_zero, List.getD_cons_succ, BitVec.toNat_ofNat]
  omega

/-- The bytes that a store of the three digits leaves: a digit at each address of the run, the old bytes outside it
(R100). -/
theorem read_writeRun_bcdDigits {m : Memory} (hm : m.wf) (a : Nat) (v : Byte) :
    (∀ j, j < 3 → (m.writeRun a (bcdDigits v)).read (a + j) = (bcdDigits v).getD j 0#8)
      ∧ ∀ b, b < a ∨ a + 2 < b → (m.writeRun a (bcdDigits v)).read b = m.read b := by
  have hlength : (bcdDigits v).length = 3 := rfl
  refine ⟨fun j hj => ?_, fun b hb => ?_⟩ <;> rw [read_writeRun _ _ _ hm.1, hlength]
  · rw [if_pos (by omega), Nat.add_sub_cancel_left]
  · rw [if_neg (by omega)]

/-- Settles O43: the range check decides between the stored digits and the fatal outcome. -/
theorem bcdStoresThreeDigits : Obligations.BcdStoresThreeDigits := by
  unfold Obligations.BcdStoresThreeDigits
  refine fun x s hwf => ⟨isWordOf_familyF 0x33#8 rfl, fun hrun => ?_, fun hbeyond => ?_⟩
  · obtain ⟨hstored, hother⟩ := read_writeRun_bcdDigits hwf s.index.toNat (s.reg x)
    obtain ⟨hhundreds, htens, hones⟩ := bcdDigits_toNat (s.reg x)
    exact ⟨_, withRange_ok _ _ (.inr (by omega)), rfl, onlyChanges_setMem_advance _ _,
      (congrArg _ (hstored 0 (by decide))).trans hhundreds, (congrArg _ (hstored 1 (by decide))).trans htens,
      (congrArg _ (hstored 2 (by decide))).trans hones, hother⟩
  · exact ⟨_, withRange_fatal _ _ (by decide) (by omega)⟩

/-! ## Dump and load -/

/-- Settles O46: the load checks the run that the store has passed, and reads the bytes that it left. -/
theorem loadRestoresWhatDumpStored : Obligations.LoadRestoresWhatDumpStored := by
  unfold Obligations.LoadRestoresWhatDumpStored
  intro x s t regs hwf hdump
  obtain ⟨hrun, rfl⟩ := withRange_next hdump
  refine ⟨_, withRange_ok _ _ hrun, fun k hk => ?_⟩
  obtain ⟨hstored, -⟩ := read_writeRun_regsUpTo hwf s.index.toNat s x
  exact (loadRegs_get _ _ x k).trans ((if_pos hk).trans (hstored k hk))

end Sys2Proof.IndexMemoryProofs

namespace Sys2Proof.TimerProofs

open Sys2Proof.Machine Sys2Proof.ArithmeticProofs Sys2Proof.IndexMemoryProofs

/-- An instruction that writes DT and advances changes no register and no other part (R104). -/
theorem onlyChanges_setDelay_advance (s : State) (v : Byte) : OnlyChanges [] [.delay] s (s.setDelay v).advance := by
  apply onlyChanges_of <;> simp

/-- An instruction that writes ST and advances changes no register and no other part (R105). -/
theorem onlyChanges_setSound_advance (s : State) (v : Byte) : OnlyChanges [] [.sound] s (s.setSound v).advance := by
  apply onlyChanges_of <;> simp

/-- Settles O47: each move is one write, of a register or of a timer, and an advance of pc. -/
theorem timerMoves : Obligations.TimerMoves := by
  unfold Obligations.TimerMoves
  refine fun x s => ⟨isWordOf_familyF 0x07#8 rfl, isWordOf_familyF 0x15#8 rfl, isWordOf_familyF 0x18#8 rfl, ?_, ?_, ?_⟩
  · exact ⟨_, rfl, setReg_advance_reg_same s x s.delay, rfl, onlyChanges_setReg_advance s x _⟩
  · exact ⟨_, rfl, rfl, rfl, onlyChanges_setDelay_advance s _⟩
  · exact ⟨_, rfl, rfl, rfl, onlyChanges_setSound_advance s _⟩

end Sys2Proof.TimerProofs

namespace Sys2Proof.DisplayProofs

open Sys2Proof.Machine Sys2Proof.StateProofs Sys2Proof.ControlFlowProofs

/-! ## The words of the display instructions -/

/-- The word 00E0 is CLS (R55). -/
theorem isWordOf_cls : IsWordOf 0x00E0 .cls := isWordOf_of_encode rfl

/-- The word Dxyn is DRW Vx, Vy, n (R55). -/
theorem isWordOf_drw (x y n : Fin 16) : IsWordOf (0xD000 + x.val * 256 + y.val * 16 + n.val) (.drw x y n) :=
  isWordOf_of_encode (ofNat_encodeXYN 0xD#4 x y (bits4 n))

/-! ## The clear -/

/-- An instruction that replaces the framebuffer and advances changes no register and no other part. -/
theorem onlyChanges_setFb_advance (s : State) (fb : Framebuffer) : OnlyChanges [] [.fb] s (s.setFb fb).advance := by
  apply onlyChanges_of <;> simp

/-- Settles O51: the clear replaces the framebuffer by the blank one. -/
theorem clearZeroesEveryPixel : Obligations.ClearZeroesEveryPixel := by
  unfold Obligations.ClearZeroesEveryPixel
  exact fun s => ⟨isWordOf_cls, _, rfl, blank_pixel, rfl, onlyChanges_setFb_advance s _⟩

/-! ## One draw -/

/-- A flag is 1 exactly when it is set. -/
theorem flagByte_eq_one_iff (f : Bool) : flagByte f = 1#8 ↔ f = true := by
  cases f <;> decide

section Draw

variable (x y : RegIdx) (n : Fin 16) (s : State)

/-- A draw whose sprite bytes exist, or whose height is 0, completes with the sprite drawn (R107). -/
theorem exec_drw_of_fits (hfits : n.val = 0 ∨ s.index.toNat + n.val ≤ 4096) :
    exec (.drw x y n) s = .next (drawn x y n s).advance :=
  withRange_ok _ _ hfits

/-- A draw changes VF, the pixels and FB_REDRAW alone (R107). -/
theorem onlyChanges_drawn_advance : OnlyChanges [15] [.fb, .redraw] s (drawn x y n s).advance := by
  apply onlyChanges_of <;> simp +contextual [drawn, flagReg]

/-- A draw toggles each pixel of the sprite once: the sprite has at most 15 rows, so no pixel is visited twice (R107). -/
theorem drawn_pixel (p : Pixel) : (drawn x y n s).fb.pixel p
    = (s.fb.pixel p ^^ decide (p ∈ spritePixels s.mem s.index.toNat (s.reg x) (s.reg y) n.val)) :=
  (drawPixels_spec s.fb _ (spritePixels_nodup _ _ _ _ (by omega))).1 p

/-- A draw leaves in VF whether some pixel of the sprite was set, whichever register holds a coordinate (R108). -/
theorem drawn_flag : (drawn x y n s).reg 15
    = flagByte ((spritePixels s.mem s.index.toNat (s.reg x) (s.reg y) n.val).any s.fb.pixel) :=
  (setReg_reg _ _ _ _).trans
    (congrArg flagByte (drawPixels_spec s.fb _ (spritePixels_nodup _ _ _ _ (by omega))).2)

/-- A draw changes a pixel exactly when a set bit of the sprite reaches it (R107). -/
theorem drawn_pixel_ne_iff (p : Pixel) : (drawn x y n s).fb.pixel p ≠ s.fb.pixel p ↔ SpriteReaches s x y n p := by
  rw [drawn_pixel, SpriteReaches, ← mem_spritePixels]
  cases s.fb.pixel p <;> simp

variable {x y n s}

/-- A draw inverts a pixel that the sprite reaches (R107). -/
theorem drawn_pixel_of_reaches {p : Pixel} (hp : SpriteReaches s x y n p) :
    (drawn x y n s).fb.pixel p = !s.fb.pixel p :=
  Bool.eq_not.2 ((drawn_pixel_ne_iff x y n s p).2 hp)

/-- A draw leaves a pixel that the sprite does not reach (R107). -/
theorem drawn_pixel_of_not_reaches {p : Pixel} (hp : ¬ SpriteReaches s x y n p) :
    (drawn x y n s).fb.pixel p = s.fb.pixel p :=
  not_not.1 (mt (drawn_pixel_ne_iff x y n s p).1 hp)

variable (x y n s)

/-- A draw leaves 1 in VF exactly when a pixel that it reaches was set (R108). -/
theorem drawn_flag_eq_one_iff :
    (drawn x y n s).reg 15 = 1#8 ↔ ∃ p, SpriteReaches s x y n p ∧ s.fb.pixel p = true := by
  rw [drawn_flag, flagByte_eq_one_iff, List.any_eq_true]
  exact exists_congr fun p => and_congr_left' mem_spritePixels

/-- A draw leaves 0 or 1 in VF (R108). -/
theorem drawn_flag_eq_zero_or_one : (drawn x y n s).reg 15 = 0#8 ∨ (drawn x y n s).reg 15 = 1#8 := by
  rw [drawn_flag]
  exact flagByte_eq_zero_or_one _

end Draw

/-- Settles O48: the range check passes, and the three facts of one draw say what it leaves. -/
theorem drawTogglesTheSpritePixels : Obligations.DrawTogglesTheSpritePixels := by
  unfold Obligations.DrawTogglesTheSpritePixels
  exact fun x y n s hfits => ⟨isWordOf_drw x y n, _, exec_drw_of_fits x y n s hfits, rfl,
    onlyChanges_drawn_advance x y n s, drawn_pixel_ne_iff x y n s, drawn_flag_eq_zero_or_one x y n s,
    drawn_flag_eq_one_iff x y n s, rfl⟩

/-! ## Two draws of one sprite -/

/-- What a sprite reaches depends on its bytes, I and its two coordinates, all of which a draw keeps when neither
coordinate is VF (R107). -/
theorem spriteReaches_iff_of_onlyChanges {x y : RegIdx} {s t : State} (hx : x ≠ 15) (hy : y ≠ 15)
    (hframe : OnlyChanges [15] [.fb, .redraw] s t) (n : Fin 16) (p : Pixel) :
    SpriteReaches t x y n p ↔ SpriteReaches s x y n p := by
  obtain ⟨hregs, hparts⟩ := hframe
  have hindex : t.index = s.index := hparts .index (by decide)
  have hmem : ∀ a, t.mem.read a = s.mem.read a := hparts .mem (by decide)
  simp only [SpriteReaches, hindex, hmem, hregs x (by simpa using hx), hregs y (by simpa using hy)]

/-- Settles O50: the second draw finds the sprite as the first one did, so each pixel is changed by both or by neither. -/
theorem drawingTwiceErases : Obligations.DrawingTwiceErases := by
  unfold Obligations.DrawingTwiceErases
  intro x y n s t hx hy hdraw
  obtain ⟨hfits, rfl⟩ := withRange_next hdraw
  have hreaches := spriteReaches_iff_of_onlyChanges hx hy (onlyChanges_drawn_advance x y n s) n
  refine ⟨_, exec_drw_of_fits x y n _ hfits, fun p => ?_, (drawn_flag_eq_one_iff x y n _).trans ?_⟩
  · by_cases hp : SpriteReaches s x y n p
    · have hsecond := drawn_pixel_of_reaches ((hreaches p).2 hp)
      exact hsecond.trans (by rw [advance_fb, drawn_pixel_of_reaches hp, Bool.not_not])
    · have hsecond := drawn_pixel_of_not_reaches (mt (hreaches p).1 hp)
      exact hsecond.trans (drawn_pixel_of_not_reaches hp)
  · refine exists_congr fun p => ?_
    rw [hreaches p]
    refine and_congr_right fun hp => ?_
    rw [advance_fb, drawn_pixel_of_reaches hp, Bool.not_eq_true']

end Sys2Proof.DisplayProofs

namespace Sys2Proof.KeyProofs

open Sys2Proof.Machine Sys2Proof.StepProofs Sys2Proof.ControlFlowProofs Sys2Proof.SkipProofs Sys2Proof.ArithmeticProofs
open Sys2Proof.MemoryProofs Sys2Proof.IndexMemoryProofs

/-! ## The key skips -/

/-- A pattern of family E is the instruction with its sub-operation byte (R55). -/
theorem isWordOf_familyE {x : RegIdx} (sub : Byte) {i : Instr} (hi : encodeX 0xE#4 x sub = encode i) :
    IsWordOf (0xE000 + sub.toNat + x.val * 256) i := by
  have hpattern : 0xE000 + sub.toNat + x.val * 256 = (0xE#4).toNat * 4096 + x.val * 256 + sub.toNat := by
    simp only [BitVec.toNat_ofNat]; omega
  rw [hpattern]
  exact isWordOf_of_encode ((ofNat_encodeX 0xE#4 x sub).trans hi)

section KeySkip

variable {s : State} {x : RegIdx}

/-- SKP on a key below 16 skips when the key is held (R111). -/
theorem exec_skp_of_key (k : Fin 16) (hk : (s.reg x).toNat = k.val) :
    exec (.skp x) s = .next (s.skipIf s.keys[k]) := by
  simp only [exec, execSkp, keyOperand_of_lt k hk]

/-- SKNP on a key below 16 skips when the key is not held (R112). -/
theorem exec_sknp_of_key (k : Fin 16) (hk : (s.reg x).toNat = k.val) :
    exec (.sknp x) s = .next (s.skipIf !s.keys[k]) := by
  simp only [exec, execSknp, keyOperand_of_lt k hk]

/-- SKP on a value that names no key is fatal (R110, R122). -/
theorem exec_skp_of_no_key (h : 16 ≤ (s.reg x).toNat) :
    exec (.skp x) s = raiseFatal (.keyIndexOutOfRange (s.reg x)) s := by
  simp only [exec, execSkp, keyOperand_of_ge h]

/-- SKNP on a value that names no key is fatal (R110, R122). -/
theorem exec_sknp_of_no_key (h : 16 ≤ (s.reg x).toNat) :
    exec (.sknp x) s = raiseFatal (.keyIndexOutOfRange (s.reg x)) s := by
  simp only [exec, execSknp, keyOperand_of_ge h]

end KeySkip

/-- A skip on the negation of a condition adds 2 exactly when the condition holds (R77, R112). -/
theorem skipIf_not_pc_toNat (s : State) (c : Bool) :
    (s.skipIf !c).pc.toNat = (s.pc.toNat + if c then 2 else 4) % 65536 := by
  simp only [skipIf_pc_toNat, Bool.not_eq_true', ← Bool.not_eq_true, ite_not]

/-- Settles O52, by whether `V[x]` names a key. -/
theorem keySkips : Obligations.KeySkips := by
  unfold Obligations.KeySkips
  refine fun x s => ⟨isWordOf_familyE 0x9E#8 rfl, isWordOf_familyE 0xA1#8 rfl, fun k hk => ⟨?_, ?_⟩, fun h => ⟨?_, ?_⟩⟩
  · exact ⟨_, exec_skp_of_key k hk, onlyChanges_skipIf s _, skipIf_pc_toNat s _⟩
  · exact ⟨_, exec_sknp_of_key k hk, onlyChanges_skipIf s _, skipIf_not_pc_toNat s _⟩
  · exact ⟨_, exec_skp_of_no_key h⟩
  · exact ⟨_, exec_sknp_of_no_key h⟩

/-! ## The key wait -/

section KeyWait

variable {s : State}

/-- A held key below which none is held is the least held one (R113). -/
theorem leastKeyHeld_of_least {k : Fin 16} (hk : s.keys[k] = true) (hleast : ∀ j : Fin 16, j < k → s.keys[j] = false) :
    leastKeyHeld s = some k := by
  obtain ⟨k', h, hk', hleast'⟩ | ⟨-, hnone⟩ := leastKeyHeld_cases s
  · have hle : k ≤ k' := le_of_not_gt fun hlt => by simp [hleast k' hlt] at hk'
    have hge : k' ≤ k := le_of_not_gt fun hlt => by simp [hleast' k hlt] at hk
    rw [h, le_antisymm hle hge]
  · rw [hnone k] at hk; cases hk

/-- With no key held there is no least held one (R113). -/
theorem leastKeyHeld_of_none (h : ∀ k : Fin 16, s.keys[k] = false) : leastKeyHeld s = none := by
  obtain ⟨k, -, hk, -⟩ | ⟨hnone, -⟩ := leastKeyHeld_cases s
  · rw [h k] at hk; cases hk
  · exact hnone

/-- LD Vx, K with a key held writes the least one and advances (R113). -/
theorem exec_ldVxK_of_held (x : RegIdx) {k : Fin 16} (h : leastKeyHeld s = some k) :
    exec (.ldVxK x) s = .next (s.setReg x (BitVec.ofNat 8 k.val)).advance := by
  simp only [exec, execLdVxK, h]

/-- LD Vx, K with no key held leaves the state as it was (R113). -/
theorem exec_ldVxK_of_none (x : RegIdx) (h : ∀ k : Fin 16, s.keys[k] = false) : exec (.ldVxK x) s = .next s := by
  simp only [exec, execLdVxK, leastKeyHeld_of_none h]

end KeyWait

/-- The number of a key fits in a byte. -/
theorem ofNat_key_toNat (k : Fin 16) : (BitVec.ofNat 8 k.val).toNat = k.val := by
  rw [BitVec.toNat_ofNat, Nat.mod_eq_of_lt (by omega)]

/-- Settles O53, by the least held key. -/
theorem waitForKeyTakesTheLeast : Obligations.WaitForKeyTakesTheLeast := by
  unfold Obligations.WaitForKeyTakesTheLeast
  refine fun x s => ⟨isWordOf_familyF 0x0A#8 rfl, fun k hk hleast => ?_, exec_ldVxK_of_none x⟩
  have hexec := exec_ldVxK_of_held x (leastKeyHeld_of_least hk hleast)
  have hvalue := congrArg BitVec.toNat (setReg_advance_reg_same s x (BitVec.ofNat 8 k.val))
  exact ⟨_, hexec, hvalue.trans (ofNat_key_toNat k), rfl, onlyChanges_setReg_advance s x _⟩

/-- A part that is kept twice is kept. -/
theorem same_trans {p : Part} {s t u : State} (hst : p.same s t) (htu : p.same t u) : p.same s u := by
  cases p with
  | mem => exact fun a => (htu a).trans (hst a)
  | fb => exact fun q => (htu q).trans (hst q)
  | _ => exact Eq.trans htu hst

/-- Frames compose. -/
theorem onlyChanges_trans {regs : List RegIdx} {parts : List Part} {s t u : State} (hst : OnlyChanges regs parts s t)
    (htu : OnlyChanges regs parts t u) : OnlyChanges regs parts s u := by
  obtain ⟨hregs, hparts⟩ := hst
  obtain ⟨hregs', hparts'⟩ := htu
  exact ⟨fun k hk => (hregs' k hk).trans (hregs k hk), fun p hp => same_trans (hparts p hp) (hparts' p hp)⟩

/-- Settles O54, by induction on the number of steps: each one is the timer phase alone, which keeps FAULT, pc, memory and
the keys, so the next step waits as well. -/
theorem keyWaitRunsForever : Obligations.KeyWaitRunsForever := by
  unfold Obligations.KeyWaitRunsForever
  intro s w x hf hw hd hkeys k
  induction k generalizing s with
  | zero => exact ⟨s, rfl, rfl, onlyChanges_refl s _ _, rfl, rfl⟩
  | succ k ih =>
    have hstep : step s = .next (timerPhase s) := step_of_exec_next hf hw hd (exec_ldVxK_of_none x hkeys)
    obtain ⟨t, hrun, hpc, hframe, hdelay, hsound⟩ := ih (timerPhase s) hf hw hkeys
    rw [timerPhase_delay, countDown_toNat] at hdelay
    rw [timerPhase_sound, countDown_toNat] at hsound
    exact ⟨t, (core_run_succ hstep).trans hrun, hpc, onlyChanges_trans (onlyChanges_timerPhase s) hframe,
      by omega, by omega⟩

end Sys2Proof.KeyProofs

namespace Sys2Proof.DriverProofs

open Sys2Proof.Machine Sys2Proof.ControlFlowProofs Sys2Proof.MemoryProofs

/-! ## Restart -/

/-- Launch data the spec gives a meaning has its launch (R139, R140). -/
theorem launch_of_lengths (p : Params) {l : LaunchData} (hfont : l.font.length = 80) (himage : l.image.length ≤ 3584) :
    launch p l = some { State.reset with mem := launchMemory l, params := p } :=
  if_pos ((wellFormed_iff l).2 ⟨hfont, himage⟩)

/-- The CORE after a restart: the reset state with the launch's memory, and the parameters, keys and draws that stay (R139;
log 22). -/
def restarted (l : LaunchData) (s : State) : State :=
  { State.reset with mem := launchMemory l, params := s.params, keys := s.keys, draws := s.draws }

/-- A restart with well-formed launch data is allowed of every session (R137). -/
theorem restart_of_lengths {l : LaunchData} (d : Session) (hfont : l.font.length = 80) (himage : l.image.length ≤ 3584) :
    d.restart l = some { core := restarted l d.core, last := none } :=
  restart_eq_some.2 ⟨_, launch_of_lengths d.core.params hfont himage, rfl⟩

/-- A restart puts every part at its reset value but memory, keys, draws and parameters (R139). -/
theorem onlyChanges_reset_restarted (l : LaunchData) (s : State) :
    OnlyChanges [] [.mem, .keys, .draws, .params] State.reset (restarted l s) := by
  apply onlyChanges_of <;> simp [State.reg, restarted]

/-- A restart keeps the keys, the draws and the parameters (log 22). -/
theorem onlyChanges_restarted (l : LaunchData) (s : State) :
    OnlyChanges (List.finRange 16) [.index, .stack, .sp, .delay, .sound, .fault, .mem, .fb, .redraw, .soundEvent] s
      (restarted l s) := by
  apply onlyChanges_of <;> simp [restarted]

/-- Settles O55. -/
theorem restartIsResetAndLaunch : Obligations.RestartIsResetAndLaunch := by
  unfold Obligations.RestartIsResetAndLaunch
  exact fun l d hfont himage => ⟨_, _, restart_of_lengths d hfont himage, launch_of_lengths d.core.params hfont himage, rfl,
    rfl, onlyChanges_reset_restarted l d.core, onlyChanges_restarted l d.core⟩

/-! ## Skip -/

/-- The skip is allowed exactly after the outcome `Unsupported(w)` (R137, D19). -/
theorem exists_skip_iff {d : Session} : (∃ e, d.skip = some e) ↔ ∃ w, d.last = some (.unsupported w) := by
  constructor
  · rintro ⟨e, he⟩
    obtain ⟨w, hw, -⟩ := skip_eq_some.1 he
    exact ⟨w, hw⟩
  · rintro ⟨w, hw⟩
    exact ⟨_, skip_eq_some.2 ⟨w, hw, rfl⟩⟩

/-- A request leaves the outcome `Unsupported(w)` exactly when its step was refused with `w` (R116, R117). -/
theorem request_last_eq_unsupported_iff {d e : Session} {w : Word} (h : d.request = some e) :
    e.last = some (.unsupported w) ↔ step d.core = .refused (.unsupported w) := by
  obtain ⟨t, report, hr, rfl⟩ := request_eq_some.1 h
  obtain ⟨hstep, rfl⟩ | ⟨reason, hstep, rfl⟩ | ⟨w', hstep, -, rfl⟩ := requestStep_cases hr <;> simp [hstep]

/-- Settles O56, from the condition of the skip and the outcome that a request leaves. -/
theorem driverSkipPassesTheWord : Obligations.DriverSkipPassesTheWord := by
  unfold Obligations.DriverSkipPassesTheWord
  refine fun d => ⟨fun w hw => ?_, fun hlast => ?_, fun e he => ?_⟩
  · exact ⟨_, skip_eq_some.2 ⟨w, hw, rfl⟩, BitVec.toNat_add _ _, onlyChanges_setPc d.core _, rfl⟩
  · refine Option.eq_none_iff_forall_ne_some.2 fun e he => ?_
    obtain ⟨w, hw, -⟩ := skip_eq_some.1 he
    exact hlast w hw
  · exact exists_skip_iff.trans (exists_congr fun w => request_last_eq_unsupported_iff he)

/-! ## Every skip has its report -/

/-- The actions that keep the outcome the driver has: writes of KeyState and clearings of FB_REDRAW (log 22). -/
def KeepsOutcome (a : HostAction) : Prop := (∃ keys, a = .writeKeys keys) ∨ a = .clearRedraw

/-- The actions `as` from `d₀` have requested a step that reported `w` at the address `pc`, and the report still stands. -/
def HasReport (d₀ : Session) (as : List HostAction) (w pc : Word) : Prop :=
  ∃ before after d, as = before ++ .requestStep :: after ∧ runActions before d₀ = some d
    ∧ step d.core = .refused (.unsupported w) ∧ d.core.pc = pc ∧ ∀ a ∈ after, KeepsOutcome a

section Report

variable {d₀ d e : Session} {a : HostAction} {as : List HostAction} {w pc : Word}

/-- A request of a refused step is a report that stands. -/
theorem HasReport.of_request (hrun : runActions as d₀ = some d) (hstep : step d.core = .refused (.unsupported w)) :
    HasReport d₀ (as ++ [.requestStep]) w d.core.pc :=
  ⟨as, [], d, rfl, hrun, hstep, rfl, nofun⟩

/-- A report stands after one more action that keeps the outcome. -/
theorem HasReport.snoc (h : HasReport d₀ as w pc) (ha : KeepsOutcome a) : HasReport d₀ (as ++ [a]) w pc := by
  obtain ⟨before, after, d, rfl, hrun, hstep, hpc, hkeep⟩ := h
  refine ⟨before, after ++ [a], d, by simp, hrun, hstep, hpc, fun b hb => ?_⟩
  obtain hb | hb := List.mem_append.1 hb
  · exact hkeep b hb
  · exact List.mem_singleton.1 hb ▸ ha

/-- An action that leaves the outcome `Unsupported(w)` is the request that was refused, or keeps the outcome; pc stays in
both cases (R117, R137). -/
theorem apply_last_unsupported (h : a.apply d = some e) (hw : e.last = some (.unsupported w)) :
    e.core.pc = d.core.pc
      ∧ ((a = .requestStep ∧ step d.core = .refused (.unsupported w))
        ∨ (KeepsOutcome a ∧ d.last = some (.unsupported w))) := by
  obtain ⟨rfl, t, report, hr, rfl⟩ | ⟨-, w', -, rfl⟩ | ⟨l, t, -, -, rfl⟩ | ⟨keys, rfl, rfl⟩ | ⟨rfl, rfl⟩ := apply_cases h
  · obtain ⟨-, rfl⟩ | ⟨reason, -, rfl⟩ | ⟨w', hstep, rfl, rfl⟩ := requestStep_cases hr <;> cases hw
    exact ⟨rfl, .inl ⟨rfl, hstep⟩⟩
  · cases hw
  · cases hw
  · exact ⟨rfl, .inr ⟨.inl ⟨keys, rfl⟩, hw⟩⟩
  · exact ⟨rfl, .inr ⟨.inr rfl, hw⟩⟩

/-- After every run of actions from a driver without an outcome, an outcome `Unsupported(w)` has its report at pc. By
induction on the actions from the last one back. -/
theorem hasReport_of_last (hstart : d₀.last = none) (h : runActions as d₀ = some e)
    (hw : e.last = some (.unsupported w)) : HasReport d₀ as w e.core.pc := by
  induction as using List.reverseRecOn generalizing e with
  | nil => cases h; rw [hstart] at hw; cases hw
  | append_singleton as a ih =>
    rw [runActions_append, Option.bind_eq_some_iff] at h
    obtain ⟨d, hrun, hlast⟩ := h
    rw [runActions_cons, Option.bind_eq_some_iff] at hlast
    obtain ⟨e', ha, he⟩ := hlast
    cases he
    obtain ⟨hpc, ⟨rfl, hstep⟩ | ⟨hkeep, hw'⟩⟩ := apply_last_unsupported ha hw
    · exact hpc ▸ .of_request hrun hstep
    · exact hpc ▸ (ih hrun hw').snoc hkeep

end Report

/-- Settles O57: the skip needs an outcome `Unsupported(w)`, which has its report at pc. -/
theorem everySkipHasItsReport : Obligations.EverySkipHasItsReport := by
  unfold Obligations.EverySkipHasItsReport
  intro as s e f hrun hskip
  obtain ⟨w, hw, rfl⟩ := skip_eq_some.1 hskip
  obtain ⟨before, after, d, has, hbefore, hstep, hpc, hkeep⟩ := hasReport_of_last rfl hrun hw
  exact ⟨before, after, d, w, has, hbefore, hstep, by rw [hpc]; rfl, hkeep⟩

end Sys2Proof.DriverProofs
